-- ==== Sys2Proof/Word.lean ====
section
/-!
DEFINITION. The value types of the block (spec/00_scope.md R8, R9): unsigned words of stated widths.
Register and key indexes are `Fin 16`, because a 4-bit field can name nothing else (30_encoding.md R73).
-/

namespace Sys2Proof

/-- An 8-bit value: a general register, a timer, a memory byte, the immediate `kk` (R9). -/
abbrev Byte := BitVec 8

/-- A 16-bit value: `I`, `PC`, a stack entry, an instruction word (R9). -/
abbrev Word := BitVec 16

/-- A 12-bit value: the address field `nnn` (R9). -/
abbrev Addr12 := BitVec 12

/-- The index of a general register `V[0]` to `V[15]` (10_state.md R20). -/
abbrev Reg := Fin 16

/-- The index of a key `K[0]` to `K[15]` (10_state.md R29). -/
abbrev Key := Fin 16

end Sys2Proof
end

