-- ==== Sys2Proof/Syntax.lean ====
section
/-!
DEFINITION. The 35 operations of spec/30_encoding.md R76, one constructor per row of
spec/opcode_table.json, in the table's order. Fields are those the operation uses (R72, R77).
-/

namespace Sys2Proof

/-- An operation, as the decoder of R77 answers it. -/
inductive Instr where
  /-- `0nnn`, `SYS nnn` (40_control_flow.md R101); not `00E0`, not `00EE` (R75). -/
  | sys (nnn : Addr12)
  /-- `00E0`, `CLS` (42_display.md R160). -/
  | cls
  /-- `00EE`, `RET` (R103). -/
  | ret
  /-- `1nnn`, `JP nnn` (R102). -/
  | jp (nnn : Addr12)
  /-- `2nnn`, `CALL nnn` (R104). -/
  | call (nnn : Addr12)
  /-- `3xkk`, `SE Vx, kk` (R106). -/
  | seImm (x : Reg) (kk : Byte)
  /-- `4xkk`, `SNE Vx, kk` (R107). -/
  | sneImm (x : Reg) (kk : Byte)
  /-- `5xy0`, `SE Vx, Vy` (R108). -/
  | seReg (x y : Reg)
  /-- `6xkk`, `LD Vx, kk` (41_alu.md R130). -/
  | ldImm (x : Reg) (kk : Byte)
  /-- `7xkk`, `ADD Vx, kk` (R131). -/
  | addImm (x : Reg) (kk : Byte)
  /-- `8xy0`, `LD Vx, Vy` (R135). -/
  | ldReg (x y : Reg)
  /-- `8xy1`, `OR Vx, Vy` (R136). -/
  | orReg (x y : Reg)
  /-- `8xy2`, `AND Vx, Vy` (R137). -/
  | andReg (x y : Reg)
  /-- `8xy3`, `XOR Vx, Vy` (R138). -/
  | xorReg (x y : Reg)
  /-- `8xy4`, `ADD Vx, Vy` (R139). -/
  | addReg (x y : Reg)
  /-- `8xy5`, `SUB Vx, Vy` (R140). -/
  | sub (x y : Reg)
  /-- `8xy6`, `SHR Vx`; the `y` bits are no operand (R141, R77; log entry 14). -/
  | shr (x : Reg)
  /-- `8xy7`, `SUBN Vx, Vy` (R142). -/
  | subn (x y : Reg)
  /-- `8xyE`, `SHL Vx`; the `y` bits are no operand (R143, R77; log entry 14). -/
  | shl (x : Reg)
  /-- `9xy0`, `SNE Vx, Vy` (R109). -/
  | sneReg (x y : Reg)
  /-- `Annn`, `LD I, nnn` (44_index_memory.md R190). -/
  | ldI (nnn : Addr12)
  /-- `Bnnn`, `JP V0, nnn` (R105). -/
  | jpV0 (nnn : Addr12)
  /-- `Cxkk`, `RND Vx, kk` (R144). -/
  | rnd (x : Reg) (kk : Byte)
  /-- `Dxyn`, `DRW Vx, Vy, n` (R161). -/
  | drw (x y : Reg) (n : Fin 16)
  /-- `Ex9E`, `SKP Vx` (43_input_timers.md R175). -/
  | skp (x : Reg)
  /-- `ExA1`, `SKNP Vx` (R176). -/
  | sknp (x : Reg)
  /-- `Fx07`, `LD Vx, DT` (R178). -/
  | ldVxDt (x : Reg)
  /-- `Fx0A`, `LD Vx, K` (R177). -/
  | ldVxK (x : Reg)
  /-- `Fx15`, `LD DT, Vx` (R179). -/
  | ldDtVx (x : Reg)
  /-- `Fx18`, `LD ST, Vx` (R180). -/
  | ldStVx (x : Reg)
  /-- `Fx1E`, `ADD I, Vx` (R191). -/
  | addI (x : Reg)
  /-- `Fx29`, `LD F, Vx` (R192). -/
  | ldF (x : Reg)
  /-- `Fx33`, `LD B, Vx` (R193). -/
  | ldB (x : Reg)
  /-- `Fx55`, `LD [I], Vx` (R194). -/
  | store (x : Reg)
  /-- `Fx65`, `LD Vx, [I]` (R195). -/
  | load (x : Reg)
  deriving DecidableEq, Repr

end Sys2Proof
end

