-- ==== Sys2Proof/WellFormed.lean ====
section
/-!
DEFINITION. Which operations some instruction word stands for (spec/30_encoding.md R75): the two
exact words 0x00E0 and 0x00EE belong to CLS and RET, so `SYS 0x0E0` and `SYS 0x0EE` have no word.
-/

namespace Sys2Proof

/-- The one check of the syntax: `SYS` does not carry the address bits of CLS or RET (R75). Every
other field is as wide as its bits in the word, so every other operation has a word. -/
def Instr.wellFormed : Instr → Bool
  | .sys nnn => nnn ≠ 0x0E0#12 && nnn ≠ 0x0EE#12
  | .cls | .ret => true
  | .jp _ | .call _ | .ldI _ | .jpV0 _ => true
  | .seImm _ _ | .sneImm _ _ | .ldImm _ _ | .addImm _ _ | .rnd _ _ => true
  | .seReg _ _ | .sneReg _ _ | .ldReg _ _ | .orReg _ _ | .andReg _ _ | .xorReg _ _ => true
  | .addReg _ _ | .sub _ _ | .subn _ _ | .shr _ | .shl _ => true
  | .drw _ _ _ => true
  | .skp _ | .sknp _ | .ldVxDt _ | .ldVxK _ | .ldDtVx _ | .ldStVx _ => true
  | .addI _ | .ldF _ | .ldB _ | .store _ | .load _ => true

end Sys2Proof
end

