-- ==== Sys2Proof/Decode.lean ====
section
/-!
DEFINITION. The bytecode decoder (spec/30_encoding.md R70 to R80): fields, the total decode function
of R77, the encoder written from the same table (R76, R81), and the table itself as data.
-/

namespace Sys2Proof

/-! ## Fields (R8, R71) -/

/-- `w[hi:lo]`, the unsigned value of bits `hi` down to `lo` (00_scope.md R8). -/
def bits (w : Word) (hi lo : Nat) : Nat := w.toNat / 2 ^ lo % 2 ^ (hi + 1 - lo)

/-- `op = w[15:12]`, the top nibble (R71). -/
def fieldOp (w : Word) : Fin 16 := Fin.ofNat 16 (bits w 15 12)

/-- `x = w[11:8]` (R71). -/
def fieldX (w : Word) : Reg := Fin.ofNat 16 (bits w 11 8)

/-- `y = w[7:4]` (R71). -/
def fieldY (w : Word) : Reg := Fin.ofNat 16 (bits w 7 4)

/-- `n = w[3:0]` (R71). -/
def fieldN (w : Word) : Fin 16 := Fin.ofNat 16 (bits w 3 0)

/-- `nnn = w[11:0]` (R71). -/
def fieldNnn (w : Word) : Addr12 := BitVec.ofNat 12 (bits w 11 0)

/-- `kk = w[7:0]` (R71). -/
def fieldKk (w : Word) : Byte := BitVec.ofNat 8 (bits w 7 0)

/-! ## Byte order (20_memory.md R56) -/

/-- The word of two fetched bytes, most significant first: `hi * 256 + lo` (R55). -/
def wordOfBytes (hi lo : Byte) : Word := BitVec.ofNat 16 (hi.toNat * 256 + lo.toNat)

/-- The byte of a word that lies at the lower address (R56). -/
def highByte (w : Word) : Byte := BitVec.ofNat 8 (bits w 15 8)

/-- The byte of a word that lies at the higher address (R56). -/
def lowByte (w : Word) : Byte := BitVec.ofNat 8 (bits w 7 0)

/-! ## The decoder (R77) -/

/-- What decoding answers: one of the 35 operations, or `Invalid(w)` with the raw word (R77, R79). -/
inductive Decoded where
  | op (i : Instr)
  | invalid (w : Word)
  deriving DecidableEq, Repr

/-- Family 0: the exact words 0x00E0 and 0x00EE before `SYS` (R75). -/
def decodeFamily0 (w : Word) : Decoded :=
  if w = 0x00E0#16 then .op .cls
  else if w = 0x00EE#16 then .op .ret
  else .op (.sys (fieldNnn w))

/-- Family 8, selected by the low nibble `n` (R77). -/
def decodeFamily8 (w : Word) : Decoded :=
  let x := fieldX w
  let y := fieldY w
  match fieldN w with
  | 0x0 => .op (.ldReg x y)
  | 0x1 => .op (.orReg x y)
  | 0x2 => .op (.andReg x y)
  | 0x3 => .op (.xorReg x y)
  | 0x4 => .op (.addReg x y)
  | 0x5 => .op (.sub x y)
  | 0x6 => .op (.shr x)
  | 0x7 => .op (.subn x y)
  | 0xE => .op (.shl x)
  | _ => .invalid w

/-- Family E, selected by the low byte `kk` (R77). -/
def decodeFamilyE (w : Word) : Decoded :=
  if fieldKk w = 0x9E#8 then .op (.skp (fieldX w))
  else if fieldKk w = 0xA1#8 then .op (.sknp (fieldX w))
  else .invalid w

/-- Family F, selected by the low byte `kk` (R77). -/
def decodeFamilyF (w : Word) : Decoded :=
  let x := fieldX w
  let kk := fieldKk w
  if kk = 0x07#8 then .op (.ldVxDt x)
  else if kk = 0x0A#8 then .op (.ldVxK x)
  else if kk = 0x15#8 then .op (.ldDtVx x)
  else if kk = 0x18#8 then .op (.ldStVx x)
  else if kk = 0x1E#8 then .op (.addI x)
  else if kk = 0x29#8 then .op (.ldF x)
  else if kk = 0x33#8 then .op (.ldB x)
  else if kk = 0x55#8 then .op (.store x)
  else if kk = 0x65#8 then .op (.load x)
  else .invalid w

/-- `Decode(w)` (R77): total and pure; every word R76 does not list answers `Invalid(w)` (R78, R80).
The last arm is the top nibble 0xF, the one value left. -/
def decode (w : Word) : Decoded :=
  let x := fieldX w
  let y := fieldY w
  let n := fieldN w
  let nnn := fieldNnn w
  let kk := fieldKk w
  match fieldOp w with
  | 0x0 => decodeFamily0 w
  | 0x1 => .op (.jp nnn)
  | 0x2 => .op (.call nnn)
  | 0x3 => .op (.seImm x kk)
  | 0x4 => .op (.sneImm x kk)
  | 0x5 => if n = 0x0 then .op (.seReg x y) else .invalid w
  | 0x6 => .op (.ldImm x kk)
  | 0x7 => .op (.addImm x kk)
  | 0x8 => decodeFamily8 w
  | 0x9 => if n = 0x0 then .op (.sneReg x y) else .invalid w
  | 0xA => .op (.ldI nnn)
  | 0xB => .op (.jpV0 nnn)
  | 0xC => .op (.rnd x kk)
  | 0xD => .op (.drw x y n)
  | 0xE => decodeFamilyE w
  | _ => decodeFamilyF w

/-- Decoding from a byte stream, most significant byte first (R70): the outcome and the bytes after
the instruction, or nothing where fewer than two bytes are left. -/
def decodeBytes : List Byte → Option (Decoded × List Byte)
  | hi :: lo :: rest => some (decode (wordOfBytes hi lo), rest)
  | [_] => none
  | [] => none

/-! ## The encoder (R72, R76, R81) -/

/-- Format `A`: `oooo nnnn nnnn nnnn` (R72). -/
def packA (op : Nat) (nnn : Addr12) : Word := BitVec.ofNat 16 (op * 4096 + nnn.toNat)

/-- Formats `XK` and `X`: `oooo xxxx kkkk kkkk`; for `X` the low byte is the function (R72). -/
def packXK (op : Nat) (x : Reg) (kk : Byte) : Word :=
  BitVec.ofNat 16 (op * 4096 + x.val * 256 + kk.toNat)

/-- Formats `XY` and `XYN`: `oooo xxxx yyyy nnnn`; for `XY` the low nibble is the function (R72). -/
def packXYN (op : Nat) (x y : Reg) (n : Fin 16) : Word :=
  BitVec.ofNat 16 (op * 4096 + x.val * 256 + y.val * 16 + n.val)

/-- The word of an operation (R76); `SHR` and `SHL` assemble with `y = 0` (R81; log entry 14). -/
def encode : Instr → Word
  | .sys nnn => packA 0x0 nnn
  | .cls => 0x00E0#16
  | .ret => 0x00EE#16
  | .jp nnn => packA 0x1 nnn
  | .call nnn => packA 0x2 nnn
  | .seImm x kk => packXK 0x3 x kk
  | .sneImm x kk => packXK 0x4 x kk
  | .seReg x y => packXYN 0x5 x y 0x0
  | .ldImm x kk => packXK 0x6 x kk
  | .addImm x kk => packXK 0x7 x kk
  | .ldReg x y => packXYN 0x8 x y 0x0
  | .orReg x y => packXYN 0x8 x y 0x1
  | .andReg x y => packXYN 0x8 x y 0x2
  | .xorReg x y => packXYN 0x8 x y 0x3
  | .addReg x y => packXYN 0x8 x y 0x4
  | .sub x y => packXYN 0x8 x y 0x5
  | .shr x => packXYN 0x8 x 0 0x6
  | .subn x y => packXYN 0x8 x y 0x7
  | .shl x => packXYN 0x8 x 0 0xE
  | .sneReg x y => packXYN 0x9 x y 0x0
  | .ldI nnn => packA 0xA nnn
  | .jpV0 nnn => packA 0xB nnn
  | .rnd x kk => packXK 0xC x kk
  | .drw x y n => packXYN 0xD x y n
  | .skp x => packXK 0xE x 0x9E
  | .sknp x => packXK 0xE x 0xA1
  | .ldVxDt x => packXK 0xF x 0x07
  | .ldVxK x => packXK 0xF x 0x0A
  | .ldDtVx x => packXK 0xF x 0x15
  | .ldStVx x => packXK 0xF x 0x18
  | .addI x => packXK 0xF x 0x1E
  | .ldF x => packXK 0xF x 0x29
  | .ldB x => packXK 0xF x 0x33
  | .store x => packXK 0xF x 0x55
  | .load x => packXK 0xF x 0x65

/-- The two bytes of an operation as memory holds them (R56, R70). -/
def encodeBytes (i : Instr) : List Byte := [highByte (encode i), lowByte (encode i)]

/-! ## The opcode table as data (R76) -/

/-- One row of R76: its number, its mask and match, and the words it leaves to other rows. -/
structure OpcodeRow where
  number : Nat
  mask : Word
  pattern : Word
  excluded : List Word := []
  deriving DecidableEq, Repr

/-- The words a row stands for: those that agree with its pattern under its mask, less the excluded. -/
def OpcodeRow.accepts (r : OpcodeRow) (w : Word) : Bool :=
  (w &&& r.mask) = r.pattern && !r.excluded.contains w

/-- Rows 1 to 10 of R76. -/
def opcodeRowsA : List OpcodeRow :=
  [⟨1, 0xF000#16, 0x0000#16, [0x00E0#16, 0x00EE#16]⟩, ⟨2, 0xFFFF#16, 0x00E0#16, []⟩,
   ⟨3, 0xFFFF#16, 0x00EE#16, []⟩, ⟨4, 0xF000#16, 0x1000#16, []⟩,
   ⟨5, 0xF000#16, 0x2000#16, []⟩, ⟨6, 0xF000#16, 0x3000#16, []⟩,
   ⟨7, 0xF000#16, 0x4000#16, []⟩, ⟨8, 0xF00F#16, 0x5000#16, []⟩,
   ⟨9, 0xF000#16, 0x6000#16, []⟩, ⟨10, 0xF000#16, 0x7000#16, []⟩]

/-- Rows 11 to 20 of R76. -/
def opcodeRowsB : List OpcodeRow :=
  [⟨11, 0xF00F#16, 0x8000#16, []⟩, ⟨12, 0xF00F#16, 0x8001#16, []⟩,
   ⟨13, 0xF00F#16, 0x8002#16, []⟩, ⟨14, 0xF00F#16, 0x8003#16, []⟩,
   ⟨15, 0xF00F#16, 0x8004#16, []⟩, ⟨16, 0xF00F#16, 0x8005#16, []⟩,
   ⟨17, 0xF00F#16, 0x8006#16, []⟩, ⟨18, 0xF00F#16, 0x8007#16, []⟩,
   ⟨19, 0xF00F#16, 0x800E#16, []⟩, ⟨20, 0xF00F#16, 0x9000#16, []⟩]

/-- Rows 21 to 35 of R76. -/
def opcodeRowsC : List OpcodeRow :=
  [⟨21, 0xF000#16, 0xA000#16, []⟩, ⟨22, 0xF000#16, 0xB000#16, []⟩,
   ⟨23, 0xF000#16, 0xC000#16, []⟩, ⟨24, 0xF000#16, 0xD000#16, []⟩,
   ⟨25, 0xF0FF#16, 0xE09E#16, []⟩, ⟨26, 0xF0FF#16, 0xE0A1#16, []⟩,
   ⟨27, 0xF0FF#16, 0xF007#16, []⟩, ⟨28, 0xF0FF#16, 0xF00A#16, []⟩,
   ⟨29, 0xF0FF#16, 0xF015#16, []⟩, ⟨30, 0xF0FF#16, 0xF018#16, []⟩,
   ⟨31, 0xF0FF#16, 0xF01E#16, []⟩, ⟨32, 0xF0FF#16, 0xF029#16, []⟩,
   ⟨33, 0xF0FF#16, 0xF033#16, []⟩, ⟨34, 0xF0FF#16, 0xF055#16, []⟩,
   ⟨35, 0xF0FF#16, 0xF065#16, []⟩]

/-- The 35 rows of R76, in order. -/
def opcodeTable : List OpcodeRow := opcodeRowsA ++ opcodeRowsB ++ opcodeRowsC

/-- The number of an operation's row in R76. -/
def Instr.rowNumber : Instr → Nat
  | .sys _ => 1
  | .cls => 2
  | .ret => 3
  | .jp _ => 4
  | .call _ => 5
  | .seImm _ _ => 6
  | .sneImm _ _ => 7
  | .seReg _ _ => 8
  | .ldImm _ _ => 9
  | .addImm _ _ => 10
  | .ldReg _ _ => 11
  | .orReg _ _ => 12
  | .andReg _ _ => 13
  | .xorReg _ _ => 14
  | .addReg _ _ => 15
  | .sub _ _ => 16
  | .shr _ => 17
  | .subn _ _ => 18
  | .shl _ => 19
  | .sneReg _ _ => 20
  | .ldI _ => 21
  | .jpV0 _ => 22
  | .rnd _ _ => 23
  | .drw _ _ _ => 24
  | .skp _ => 25
  | .sknp _ => 26
  | .ldVxDt _ => 27
  | .ldVxK _ => 28
  | .ldDtVx _ => 29
  | .ldStVx _ => 30
  | .addI _ => 31
  | .ldF _ => 32
  | .ldB _ => 33
  | .store _ => 34
  | .load _ => 35

/-! ## The host's view of a table word -/

/-- The 16-bit word the opcode table's numbering `w` names: its low `nbits` bits, the bits above zero. -/
def tableWord (nbits w : Nat) : Word := BitVec.ofNat 16 (w % 2 ^ nbits)

/-- The operation the decoder reads from the table word `w`, laid out in memory as the hardware stores
it (most significant byte at the lower address, R56); nothing where the word is invalid. -/
def decodeTableWord (nbits w : Nat) : Option Instr :=
  match decodeBytes [highByte (tableWord nbits w), lowByte (tableWord nbits w)] with
  | some (.op i, _) => some i
  | some (.invalid _, _) => none
  | none => none

end Sys2Proof
end

