-- ==== Sys2Proof/Config.lean ====
section
/-!
DEFINITION. What one implementation fixes: the sizes of spec/00_scope.md R6, the types of the two
enumerated parameters of R7, and the one free value, the random input of the RND instruction.
The values this model gives the open parameters of R7 stand in Machine/Params.lean.
-/

namespace Sys2Proof

/-- `FLAG_WRITE_ORDER` (00_scope.md R7, 41_alu.md R133): which write of a flagged instruction comes last. -/
inductive FlagWriteOrder where
  | flagLast
  | resultLast
  deriving DecidableEq, Repr

/-- `SYS_BEHAVIOUR` (00_scope.md R7, 40_control_flow.md R101): what the operation `SYS nnn` does. -/
inductive SysBehaviour where
  | nop
  | fault
  deriving DecidableEq, Repr

/-- `MEM_SIZE`: the number of memory bytes (R6). -/
def Config.memSize : Nat := 4096

/-- `STACK_DEPTH`: the number of stack entries (R6). -/
def Config.stackDepth : Nat := 16

/-- FREE VALUE. The random input (41_alu.md R144, 60_exceptions.md R229): the byte that draw number
`k` of a machine's life answers. It has no body, so no statement can rest on a value, on a
distribution or on a relation between draws. Log entry 5; safe. -/
opaque Config.rnd : Nat → Byte

end Sys2Proof
end

