-- ==== Sys2Proof/Machine/Params.lean ====
section
/-!
DEFINITION. The parameters spec/00_scope.md R7 leaves open: the structure `Params`, which the machine
of Machine/Parametric.lean and Machine/Ports.lean takes as an argument, and each parameter's default,
which the spec uses everywhere and the machine behind the host's interface has. They are fixed for one
machine and no state (10_state.md R32).
-/

namespace Sys2Proof.Machine

/-- `PROGRAM_START`, default 0x200 (R7, D2). DESIGN CHOICE: the spec leaves the parameter open and
the model takes its default (log entry 1; unsafe). -/
def programStart : Nat := 0x200

/-- `RESERVED_LOW`: the size of the region `load` never writes, `[0, PROGRAM_START)` (R7). -/
def reservedLow : Nat := programStart

/-- `MAX_IMAGE`, the longest image `load` accepts: `MEM_SIZE - RESERVED_LOW` (R7, 70 R241). -/
def maxImage : Nat := Config.memSize - reservedLow

/-- `FONT_BASE`, default 0x000 (R7, D3). -/
def fontBase : Nat := 0x000

/-- The glyphs of the digits 0 to 7 (10_state.md R31). -/
def glyphs0To7 : List Byte :=
  [0xF0, 0x90, 0x90, 0x90, 0xF0, 0x20, 0x60, 0x20, 0x20, 0x70,
   0xF0, 0x10, 0xF0, 0x80, 0xF0, 0xF0, 0x10, 0xF0, 0x10, 0xF0,
   0x90, 0x90, 0xF0, 0x10, 0x10, 0xF0, 0x80, 0xF0, 0x10, 0xF0,
   0xF0, 0x80, 0xF0, 0x90, 0xF0, 0xF0, 0x10, 0x20, 0x40, 0x40]

/-- The glyphs of the digits 8 to F (R31). -/
def glyphs8ToF : List Byte :=
  [0xF0, 0x90, 0xF0, 0x90, 0xF0, 0xF0, 0x90, 0xF0, 0x10, 0xF0,
   0xF0, 0x90, 0xF0, 0x90, 0x90, 0xE0, 0x90, 0xE0, 0x90, 0xE0,
   0xF0, 0x80, 0x80, 0x80, 0xF0, 0xE0, 0x90, 0x90, 0x90, 0xE0,
   0xF0, 0x80, 0xF0, 0x80, 0xF0, 0xF0, 0x80, 0xF0, 0x80, 0x80]

/-- `FONT_IMAGE`, the 80 bytes of the built-in font at the spec's default (R7, R31). DESIGN CHOICE:
the spec leaves the parameter open and the model takes its default (log entry 2; unsafe). -/
def fontImage : List Byte := glyphs0To7 ++ glyphs8ToF

/-- `FLAG_WRITE_ORDER`, default `flag_last` (R7, D6). DESIGN CHOICE: the spec leaves the parameter
open and the model takes its default (log entry 3; unsafe when `x = 15`). -/
def flagWriteOrder : FlagWriteOrder := .flagLast

/-- `SYS_BEHAVIOUR`, default `nop` (R7, D9). DESIGN CHOICE: the spec leaves the parameter open and
the model takes its default (log entry 4; unsafe). -/
def sysBehaviour : SysBehaviour := .nop

/-- The parameters of R7, one field each; `rnd` answers draw number `k` of the machine's life. Two have
the default that R7 derives from the others. -/
structure Params where
  /-- `PROGRAM_START` (D2). -/
  programStart : Nat
  /-- `RESERVED_LOW`: the size of the low region `load` never writes. -/
  reservedLow : Nat := programStart
  /-- `MAX_IMAGE`: the longest image `load` accepts. -/
  maxImage : Nat := Config.memSize - reservedLow
  /-- `FONT_BASE` (D3). -/
  fontBase : Nat
  /-- `FONT_IMAGE` (D3). -/
  fontImage : List Byte
  /-- `FLAG_WRITE_ORDER` (D6). -/
  flagWriteOrder : FlagWriteOrder
  /-- `SYS_BEHAVIOUR` (D9). -/
  sysBehaviour : SysBehaviour
  /-- `rnd`, the random input (D12). -/
  rnd : Nat → Byte

/-- Every parameter at the default of R7; the random input stays free (log entries 1 to 5). -/
def defaultParams : Params where
  programStart := programStart
  reservedLow := reservedLow
  maxImage := maxImage
  fontBase := fontBase
  fontImage := fontImage
  flagWriteOrder := flagWriteOrder
  sysBehaviour := sysBehaviour
  rnd := Config.rnd

/-- What the address map asks of the parameters (20_memory.md R60, 10_state.md R31): an image lies in
memory and above the reserved region, and the 80 bytes of the font lie in memory. DEDUCED, log entry 17. -/
def Params.wf (p : Params) : Prop :=
  p.reservedLow ≤ p.programStart ∧ p.programStart + p.maxImage ≤ Config.memSize ∧
  p.fontImage.length = 80 ∧ p.fontBase + 80 ≤ Config.memSize

end Sys2Proof.Machine
end

