-- ==== Sys2Proof/Machine/Memory.lean ====
section
/-!
DEFINITION. The 4096-byte store (spec/10_state.md R30, R31, R34): a list of address and byte pairs in
one canonical form, strictly rising and listing only bytes that differ from the reset contents. The
range check is not here but in Machine/Ops.lean (20_memory.md R51 to R53). Log entry 10.
-/

namespace Sys2Proof.Machine

/-- Memory as plain data: the listed cells; every other address reads as `Memory.initial`. -/
abbrev Memory := List Host.Cell

/-- The reset contents of R34 under the parameters: `FONT_IMAGE` at `FONT_BASE`, 0 everywhere else. -/
def Memory.initialWith (p : Params) (a : Nat) : Byte :=
  if p.fontBase ≤ a then p.fontImage.getD (a - p.fontBase) 0 else 0

/-- What an unlisted address reads as: the reset contents under the default parameters. -/
def Memory.initial (a : Nat) : Byte := Memory.initialWith defaultParams a

/-- The byte at address `a`. -/
def Memory.read : Memory → Nat → Byte
  | [], a => Memory.initial a
  | (k, c) :: m, a => if k = a then c else Memory.read m a

/-- A cell put in its place among rising addresses. -/
def Memory.insert : Memory → Nat → Byte → Memory
  | [], a, b => [(a, b)]
  | (k, c) :: m, a, b => if a < k then (a, b) :: (k, c) :: m else (k, c) :: Memory.insert m a b

/-- The memory whose byte at `a` is `b` and whose other bytes are as before; it lists `a` exactly
when `b` is not what `a` reads as unlisted. -/
def Memory.write (m : Memory) (a : Nat) (b : Byte) : Memory :=
  let others := m.filter (fun c => c.1 ≠ a)
  if b = Memory.initial a then others else Memory.insert others a b

/-- Consecutive bytes written from `base` upward, lowest address first. -/
def Memory.writeSpan : Memory → Nat → List Byte → Memory
  | m, _, [] => m
  | m, base, b :: bs => Memory.writeSpan (m.write base b) (base + 1) bs

/-- The `n` bytes from `base` upward, lowest address first. -/
def Memory.readSpan (m : Memory) (base n : Nat) : List Byte :=
  (List.range n).map (fun k => m.read (base + k))

/-- The cells of the `n` addresses from `a` on that a memory with the contents `f` lists: those whose byte
differs from the unlisted one. -/
def Memory.listing (f : Nat → Byte) : Nat → Nat → Memory
  | 0, _ => []
  | n + 1, a =>
    if f a = Memory.initial a then Memory.listing f n (a + 1) else (a, f a) :: Memory.listing f n (a + 1)

/-- The memory with the contents `f`. -/
def Memory.ofContents (f : Nat → Byte) : Memory := Memory.listing f Config.memSize 0

/-- The canonical form: strictly rising addresses, each in the address space of R50, and no cell
that holds what its address reads as unlisted. -/
abbrev Memory.wf (m : Memory) : Prop :=
  m.Pairwise (fun c d => c.1 < d.1) ∧ ∀ c ∈ m, c.1 < Config.memSize ∧ c.2 ≠ Memory.initial c.1

end Sys2Proof.Machine
end

