-- ==== Sys2Proof/Machine/State.lean ====
section
/-!
DEFINITION. The state of the block as plain data (spec/10_state.md R20 to R34), its faults
(60_exceptions.md R211), and the state after reset (R34, 70_reset_and_hazards.md R240).
-/

namespace Sys2Proof.Machine

/-- The display buffer `D`: 32 rows of 64 cells, row-major, `true` lit (R28). -/
abbrev Display := Vector (Vector Bool 64) 32

/-- Every cell unlit (R34, 42_display.md R160). -/
def Display.blank : Display := Vector.replicate 32 (Vector.replicate 64 false)

/-- All the state the spec gives the block, and one counter of the model's own (`draws`). -/
structure State where
  /-- `V[0]` to `V[15]`; `VF` is `V[15]` (R20, R21). -/
  v : Vector Byte 16
  /-- `I`, the address register (R23). -/
  i : Word
  /-- `PC`, the program counter (R24). -/
  pc : Word
  /-- `SP`, the number of valid stack entries, 0 to 16 (R25). -/
  sp : Fin 17
  /-- `S[0]` to `S[15]`, the return addresses (R25). -/
  stack : Vector Word 16
  /-- `DT`, the delay timer (R27). -/
  dt : Byte
  /-- `ST`, the sound timer (R27). -/
  st : Byte
  /-- `M[0]` to `M[4095]` (R30). -/
  mem : Memory
  /-- `D[x, y]`, the display cells (R28). -/
  display : Display
  /-- `K[0]` to `K[15]`, `true` pressed (R29). -/
  keys : Vector Bool 16
  /-- The MODEL's own field, no register of the spec: how many random bytes have been taken, the
  argument of the free value `Config.rnd` (41_alu.md R144). DESIGN CHOICE, log entry 5. -/
  draws : Nat
  deriving DecidableEq, Repr

/-- The faults of the `step` port (60_exceptions.md R211). Each ends the step and is returned to the
host; none is taken inside the block (R210), and a fault is terminal for a model (R216). Every one is
SAFE: the model stops where the spec says the step ends (log entry 6). -/
inductive Fault where
  /-- Raised by `CALL` with `SP = 16` (40_control_flow.md R104). Safe. -/
  | stackOverflow
  /-- Raised by `RET` with `SP = 0` (R103). Safe. -/
  | stackUnderflow
  /-- Raised by fetch, `DRW`, `LD B`, `LD [I]` and `LD Vx, [I]`: `addr` is the lowest address of the
  access at or above 4096 (20_memory.md R51, R54). Safe. -/
  | invalidMemoryAccess (addr : Nat)
  /-- Raised by an `Invalid(w)` outcome that reaches the executor (R110), and by `SYS` where the
  parameter `SYS_BEHAVIOUR` is `fault` (R101). Safe. -/
  | invalidOpcode (w : Word)
  /-- Raised by nothing: a 4-bit field names a register always (R211, 30_encoding.md R73). Safe. -/
  | invalidRegister (index : Nat)
  /-- Raised by `LD F, Vx` with `Vx > 15` (44_index_memory.md R192). Safe. -/
  | fontIndexOutOfRange (value : Byte)
  /-- Raised by `SKP` and `SKNP` with `Vx > 15`, the spec's own fault (43_input_timers.md R181). Safe. -/
  | undefinedKeyIndex (value : Byte)
  deriving DecidableEq, Repr

/-- The refusals of the model. -/
inductive Refusal where
  /-- Raised by an arm of `exec` whose instruction has no meaning yet; no arm of this model raises
  it. Safe. -/
  | notModelled (mnemonic : String)
  deriving DecidableEq, Repr

/-- How a step or an instruction ends. -/
abbrev Result := Host.Outcome State Fault Refusal

/-- The table of R34 with `PC` and the memory's contents left to the parameters: everything else is
zero, blank, released and empty. `draws` is the model's own (log entry 5). -/
def State.cleared (start : Nat) (m : Memory) : State where
  v := Vector.replicate 16 0
  i := 0
  pc := BitVec.ofNat 16 start
  sp := 0
  stack := Vector.replicate 16 0
  dt := 0
  st := 0
  mem := m
  display := Display.blank
  keys := Vector.replicate 16 false
  draws := 0

/-- The machine with parameters `p` right after reset (R34, R240): `PC = PROGRAM_START`, the font in
memory. -/
def State.resetWith (p : Params) : State :=
  State.cleared p.programStart (Memory.ofContents (Memory.initialWith p))

/-- The machine right after reset under the default parameters. Its memory lists nothing, since an
unlisted address reads as the font or 0; it is `State.resetWith defaultParams`
(Laws/Params.lean, `resetWith_default`). -/
def State.reset : State := State.cleared programStart []

end Sys2Proof.Machine
end

