-- ==== Sys2Proof/Machine/Ops.lean ====
section
/-!
DEFINITION. The named operations every meaning is built from: register access, the memory gate and
its range check (spec/20_memory.md R51 to R54), the call stack (10_state.md R25), control transfer,
and the raising of a fault with the state it leaves (60_exceptions.md R210, R212).
-/

namespace Sys2Proof.Machine

/-! ## Faults -/

/-- `raise F(info)`: the instruction ends with the fault (00_scope.md R10, 60_exceptions.md R210). The
block has no trap: no register is saved, no mode changes and no handler runs, so this one operation
is all there is of taking an exception, and there is no return from one (R215). -/
def raise (f : Fault) : Result := .fault f

/-! ## Registers -/

/-- `V[r]`. -/
def State.getV (s : State) (r : Reg) : Byte := s.v[r.val]

/-- `V[r] <- b`; no register is hard-wired (10_state.md R20). -/
def State.setV (s : State) (r : Reg) (b : Byte) : State := { s with v := s.v.set r.val b }

/-- `VF`, the flag register `V[15]` (R21). -/
def flagReg : Reg := 15

/-- `I <- w`. -/
def State.setI (s : State) (w : Word) : State := { s with i := w }

/-- `DT <- b`. -/
def State.setDt (s : State) (b : Byte) : State := { s with dt := b }

/-- `ST <- b`. -/
def State.setSt (s : State) (b : Byte) : State := { s with st := b }

/-- The memory replaced. -/
def State.setMem (s : State) (m : Memory) : State := { s with mem := m }

/-- The display replaced. -/
def State.setDisplay (s : State) (d : Display) : State := { s with display := d }

/-- `K[k]`. -/
def State.key (s : State) (k : Key) : Bool := s.keys[k.val]

/-- `D[x, y]`, the cell at column `x` and row `y` (R28). -/
def Display.get (d : Display) (x : Fin 64) (y : Fin 32) : Bool := d[y.val][x.val]

/-- `D[x, y] <- b`. -/
def Display.put (d : Display) (x : Fin 64) (y : Fin 32) (b : Bool) : Display :=
  d.set y.val (d[y.val].set x.val b)

/-- `D[x, y]` of a state. -/
def State.pixel (s : State) (x : Fin 64) (y : Fin 32) : Bool := s.display.get x y

/-! ## Control transfer -/

/-- `PC <- w`; a target is not checked when it is written (40_control_flow.md R112). -/
def State.setPc (s : State) (w : Word) : State := { s with pc := w }

/-- The pre-advance `PC <- PC + 2` of every step (R100), which a matching skip makes once more (R106). -/
def State.advance (s : State) : State := s.setPc (s.pc + 2#16)

/-- The rewind `PC <- PC - 2` of the key wait (43_input_timers.md R177). -/
def State.rewind (s : State) : State := s.setPc (s.pc - 2#16)

/-- The shared form of the skips: one further increment of 2 when the condition holds (R106). -/
def skipIf (c : Bool) (s : State) : Result := .next (if c then s.advance else s)

/-! ## The call stack -/

/-- Push: `S[SP] <- w; SP <- SP + 1`, or `StackOverflow` when `SP = 16` (R104). -/
def push (s : State) (w : Word) : Except Fault State :=
  if h : s.sp.val < 16 then
    .ok { s with stack := s.stack.set s.sp.val w, sp := ⟨s.sp.val + 1, by omega⟩ }
  else .error .stackOverflow

/-- Pop: `SP <- SP - 1`, answering `S[SP]`, or `StackUnderflow` when `SP = 0` (R103). The popped entry
keeps its value (10_state.md R26; log entry 9). -/
def pop (s : State) : Except Fault (Word × State) :=
  if h : 0 < s.sp.val then
    .ok (s.stack[s.sp.val - 1], { s with sp := ⟨s.sp.val - 1, by omega⟩ })
  else .error .stackUnderflow

/-! ## The memory gate -/

/-- The address decoder: addresses 0 to 4095 are accepted, all others rejected (20_memory.md R51). -/
def addressOk (a : Nat) : Bool := a < Config.memSize

/-- `MemRead(a, 1)` (R52). -/
def memRead (s : State) (a : Nat) : Except Fault Byte :=
  if addressOk a then .ok (s.mem.read a) else .error (.invalidMemoryAccess a)

/-- `MemWrite(a, 1, b)` (R53). -/
def memWrite (s : State) (a : Nat) (b : Byte) : Except Fault State :=
  if addressOk a then .ok (s.setMem (s.mem.write a b)) else .error (.invalidMemoryAccess a)

/-- The check of a span of `n` bytes at `base`, made before any byte is touched: the lowest rejected
address of the span, if there is one (R54). An empty span is not checked (42_display.md R161). -/
def spanFault (base n : Nat) : Option Fault :=
  if base + n ≤ Config.memSize || n = 0 then none
  else some (.invalidMemoryAccess (max base Config.memSize))

/-- An instruction that reaches memory through a span: its effect, or the span's fault and nothing
else (R54). -/
def guardSpan (base n : Nat) (effect : Result) : Result :=
  match spanFault base n with
  | some f => raise f
  | none => effect

/-- `Fetch()`: the big-endian word at `PC`, both bytes checked in order (R55). -/
def fetch (s : State) : Except Fault Word :=
  match memRead s s.pc.toNat with
  | .error f => .error f
  | .ok hi =>
    match memRead s (s.pc.toNat + 1) with
    | .error f => .error f
    | .ok lo => .ok (wordOfBytes hi lo)

/-- The state a faulting step of `s` leaves to the host: unchanged after a fetch fault, and with only
the pre-advanced `PC` after any other (60_exceptions.md R212, R215; log entry 6). -/
def afterFault (s : State) : State :=
  match fetch s with
  | .error _ => s
  | .ok _ => s.advance

/-! ## Placing an instruction for the host's checks -/

/-- `s` with the instruction word `w` where the next step fetches: at `PC`, most significant byte
first (R56). Where no instruction can lie at `PC` (0x0FFF and above, R55) the `PC` is first put at
`PROGRAM_START` (log entry 13). -/
def placeWord (s : State) (w : Word) : State :=
  let t := if s.pc.toNat + 1 < Config.memSize then s else s.setPc (BitVec.ofNat 16 programStart)
  t.setMem (t.mem.writeSpan t.pc.toNat [highByte w, lowByte w])

end Sys2Proof.Machine
end

