-- ==== Sys2Proof/Machine/Flags.lean ====
section
/-!
DEFINITION. The flag rules (spec/10_state.md R22, 41_alu.md R132, R133): carry, not-borrow, the bit
shifted out, and the write of a result and a flag in the order of `FLAG_WRITE_ORDER`.
-/

namespace Sys2Proof.Machine

/-- A flag as the byte `VF` receives: 0 or 1 (R22). -/
def flagByte (f : Bool) : Byte := if f then 1 else 0

/-- The carry of `a + b`: the unsigned sum reaches 256 (R132). -/
def carryOut (a b : Byte) : Bool := 256 ≤ a.toNat + b.toNat

/-- The not-borrow of `a - b`: `a ≥ b`, equality included (R132). -/
def notBorrow (a b : Byte) : Bool := b.toNat ≤ a.toNat

/-- The bit a right shift by one moves out: bit 0 (R141). -/
def shiftedOutLow (a : Byte) : Bool := a.getLsbD 0

/-- The bit a left shift by one moves out: bit 7 (R143). -/
def shiftedOutHigh (a : Byte) : Bool := a.getLsbD 7

/-- `a + b mod 256` (R132). -/
def addBytes (a b : Byte) : Byte := BitVec.ofNat 8 ((a.toNat + b.toNat) % 256)

/-- `a - b mod 256` (R132). -/
def subBytes (a b : Byte) : Byte := BitVec.ofNat 8 ((256 + a.toNat - b.toNat) % 256)

/-- `WriteFlagged(x, r, f)` under either order (R133). -/
def writeFlagged (order : FlagWriteOrder) (x : Reg) (r : Byte) (f : Bool) (s : State) : State :=
  match order with
  | .flagLast => (s.setV x r).setV flagReg (flagByte f)
  | .resultLast => (s.setV flagReg (flagByte f)).setV x r

end Sys2Proof.Machine
end

