-- ==== Sys2Proof/Machine/Alu.lean ====
section
/-!
DEFINITION. Register loads and the ALU (spec/41_alu.md R130 to R144). No rule here changes `PC`
beyond the pre-advance; operands are read before any write (00_scope.md R11).
-/

namespace Sys2Proof.Machine

/-- `LD Vx, kk` (R130). -/
def execLdImm (x : Reg) (kk : Byte) (s : State) : Result := .next (s.setV x kk)

/-- `ADD Vx, kk`: no flag (R131, R134). -/
def execAddImm (x : Reg) (kk : Byte) (s : State) : Result := .next (s.setV x (addBytes (s.getV x) kk))

/-- `LD Vx, Vy` (R135). -/
def execLdReg (x y : Reg) (s : State) : Result := .next (s.setV x (s.getV y))

/-- `OR Vx, Vy`: no flag (R136, R134). -/
def execOrReg (x y : Reg) (s : State) : Result := .next (s.setV x (s.getV x ||| s.getV y))

/-- `AND Vx, Vy`: no flag (R137, R134). -/
def execAndReg (x y : Reg) (s : State) : Result := .next (s.setV x (s.getV x &&& s.getV y))

/-- `XOR Vx, Vy`: no flag (R138, R134). -/
def execXorReg (x y : Reg) (s : State) : Result := .next (s.setV x (s.getV x ^^^ s.getV y))

/-- `ADD Vx, Vy` with carry (R139). -/
def addRegWith (order : FlagWriteOrder) (x y : Reg) (s : State) : Result :=
  let a := s.getV x
  let b := s.getV y
  .next (writeFlagged order x (addBytes a b) (carryOut a b) s)

/-- `ADD Vx, Vy` under the default `FLAG_WRITE_ORDER` (R139). -/
def execAddReg (x y : Reg) (s : State) : Result := addRegWith flagWriteOrder x y s

/-- `SUB Vx, Vy` with not-borrow (R140). -/
def subWith (order : FlagWriteOrder) (x y : Reg) (s : State) : Result :=
  let a := s.getV x
  let b := s.getV y
  .next (writeFlagged order x (subBytes a b) (notBorrow a b) s)

/-- `SUB Vx, Vy` under the default `FLAG_WRITE_ORDER` (R140). -/
def execSub (x y : Reg) (s : State) : Result := subWith flagWriteOrder x y s

/-- `SHR Vx` (R141). -/
def shrWith (order : FlagWriteOrder) (x : Reg) (s : State) : Result :=
  let a := s.getV x
  .next (writeFlagged order x (a >>> 1) (shiftedOutLow a) s)

/-- `SHR Vx` under the default `FLAG_WRITE_ORDER` (R141). -/
def execShr (x : Reg) (s : State) : Result := shrWith flagWriteOrder x s

/-- `SUBN Vx, Vy`: the operands swapped (R142). -/
def subnWith (order : FlagWriteOrder) (x y : Reg) (s : State) : Result :=
  let a := s.getV x
  let b := s.getV y
  .next (writeFlagged order x (subBytes b a) (notBorrow b a) s)

/-- `SUBN Vx, Vy` under the default `FLAG_WRITE_ORDER` (R142). -/
def execSubn (x y : Reg) (s : State) : Result := subnWith flagWriteOrder x y s

/-- `SHL Vx` (R143). -/
def shlWith (order : FlagWriteOrder) (x : Reg) (s : State) : Result :=
  let a := s.getV x
  .next (writeFlagged order x (a <<< 1) (shiftedOutHigh a) s)

/-- `SHL Vx` under the default `FLAG_WRITE_ORDER` (R143). -/
def execShl (x : Reg) (s : State) : Result := shlWith flagWriteOrder x s

/-- One draw from the random input, a free value, and the counter moved past it (60_exceptions.md
R229; log entry 5). -/
def drawByte (rnd : Nat → Byte) (s : State) : Byte × State :=
  (rnd s.draws, { s with draws := s.draws + 1 })

/-- `RND Vx, kk`: one draw is taken whatever the mask is (R144). -/
def rndWith (rnd : Nat → Byte) (x : Reg) (kk : Byte) (s : State) : Result :=
  let (r, t) := drawByte rnd s
  .next (t.setV x (r &&& kk))

/-- `RND Vx, kk` with the free random input `Config.rnd` (R144, R229). -/
def execRnd (x : Reg) (kk : Byte) (s : State) : Result := rndWith Config.rnd x kk s

end Sys2Proof.Machine
end

