-- ==== Sys2Proof/Machine/Operands.lean ====
section
/-!
DEFINITION. The operand forms (spec/30_encoding.md R73): addresses, key and glyph indexes, decimal
digits, sprite bits, and the register spans of the bulk transfers.
-/

namespace Sys2Proof.Machine

/-- `zext_16(nnn)`: the address field widened with zeros (R73). -/
def zextAddr (nnn : Addr12) : Word := nnn.setWidth 16

/-- `zext_16(b)`: a byte widened with zeros (00_scope.md R9). -/
def zextByte (b : Byte) : Word := b.setWidth 16

/-- The key the value of a register names, if it names one: 0 to 15 (43_input_timers.md R181). -/
def keyIndex (b : Byte) : Option Key := if h : b.toNat < 16 then some ⟨b.toNat, h⟩ else none

/-- The least pressed key (R177). -/
def leastPressed (s : State) : Option Key := (List.finRange 16).find? (fun k => s.key k)

/-- A key index as the byte `LD Vx, K` captures (R177). -/
def keyByte (k : Key) : Byte := BitVec.ofNat 8 k.val

/-- The glyph address `FONT_BASE + 5 * d` of a digit value, `base` being `FONT_BASE`, if the font has one: 0 to 15
(44_index_memory.md R192). -/
def glyphAddress (base : Nat) (d : Byte) : Option Word :=
  if d.toNat ≤ 15 then some (BitVec.ofNat 16 (base + 5 * d.toNat)) else none

/-- The hundreds, tens and ones digits of a byte, in that order (R193). -/
def decimalDigits (b : Byte) : List Byte :=
  [BitVec.ofNat 8 (b.toNat / 100), BitVec.ofNat 8 (b.toNat / 10 % 10), BitVec.ofNat 8 (b.toNat % 10)]

/-- Whether column `c` of a sprite row is set: column 0 is bit 7 (42_display.md R162). -/
def spriteBit (row : Byte) (c : Nat) : Bool := row.getLsbD (7 - c)

/-- The values of `V[0]` to `V[x]`, in order (44_index_memory.md R194). -/
def regSpan (s : State) (x : Reg) : List Byte := s.v.toList.take (x.val + 1)

/-- `V[i] <- M[base + i]` for `i` from 0 to `x`, the other registers unchanged (R195). -/
def loadRegs (s : State) (base : Nat) (x : Reg) : State :=
  { s with v := Vector.ofFn fun r : Fin 16 => if r ≤ x then s.mem.read (base + r.val) else s.v[r.val] }

end Sys2Proof.Machine
end

