-- ==== Sys2Proof/Machine/Blit.lean ====
section
/-!
DEFINITION. The display and its XOR-sprite blitter (spec/42_display.md R160 to R162).
-/

namespace Sys2Proof.Machine

/-- One set sprite bit: the cell at `(px mod 64, py mod 32)` is toggled, and the collision flag is
set where the cell was lit (R161). -/
def toggleCell (px py : Nat) (acc : Display × Bool) : Display × Bool :=
  let x := Fin.ofNat 64 px
  let y := Fin.ofNat 32 py
  let lit := acc.1.get x y
  (acc.1.put x y (!lit), acc.2 || lit)

/-- Column `c` of a sprite row drawn on screen row `py` from column `cx` (R161). -/
def blitColumn (cx py : Nat) (row : Byte) (acc : Display × Bool) (c : Nat) : Display × Bool :=
  if spriteBit row c then toggleCell (cx + c) py acc else acc

/-- One sprite row, its eight columns from left to right (R161, R162). -/
def blitRow (cx py : Nat) (row : Byte) (acc : Display × Bool) : Display × Bool :=
  (List.range 8).foldl (blitColumn cx py row) acc

/-- The sprite rows from top to bottom, the first on screen row `py` (R161). -/
def blitRows (cx : Nat) : Nat → List Byte → Display × Bool → Display × Bool
  | _, [], acc => acc
  | py, row :: rows, acc => blitRows cx (py + 1) rows (blitRow cx py row acc)

/-- The whole sprite at `(cx, cy)`: the display and the collision flag, which starts at 0 (R161). -/
def blit (d : Display) (cx cy : Nat) (rows : List Byte) : Display × Bool :=
  blitRows cx cy rows (d, false)

/-- `CLS` (R160). -/
def execCls (s : State) : Result := .next (s.setDisplay Display.blank)

/-- `DRW Vx, Vy, n` (R161): the span check first; both coordinates are read before `VF` is written. -/
def execDrw (x y : Reg) (n : Fin 16) (s : State) : Result :=
  let base := s.i.toNat
  guardSpan base n.val <|
    let drawn := blit s.display (s.getV x).toNat (s.getV y).toNat (s.mem.readSpan base n.val)
    .next ((s.setDisplay drawn.1).setV flagReg (flagByte drawn.2))

end Sys2Proof.Machine
end

