-- ==== Sys2Proof/Machine/Control.lean ====
section
/-!
DEFINITION. Control transfer (spec/40_control_flow.md R101 to R110). Every meaning runs after the
pre-advance of R100, so `PC` already holds the instruction's address plus 2.
-/

namespace Sys2Proof.Machine

/-- What `SYS` does under each value of the parameter `SYS_BEHAVIOUR` (R101); `w` is its word. -/
def sysEffect (b : SysBehaviour) (w : Word) (s : State) : Result :=
  match b with
  | .nop => .next s
  | .fault => raise (.invalidOpcode w)

/-- `SYS nnn` under the default `SYS_BEHAVIOUR` (R101). -/
def execSys (nnn : Addr12) (s : State) : Result := sysEffect sysBehaviour (encode (.sys nnn)) s

/-- `JP nnn` (R102). -/
def execJp (nnn : Addr12) (s : State) : Result := .next (s.setPc (zextAddr nnn))

/-- `RET` (R103). -/
def execRet (s : State) : Result :=
  match pop s with
  | .ok (target, t) => .next (t.setPc target)
  | .error f => raise f

/-- `CALL nnn` (R104): the pushed `PC` is the pre-advanced one. -/
def execCall (nnn : Addr12) (s : State) : Result :=
  match push s s.pc with
  | .ok t => .next (t.setPc (zextAddr nnn))
  | .error f => raise f

/-- `JP V0, nnn` (R105). -/
def execJpV0 (nnn : Addr12) (s : State) : Result :=
  .next (s.setPc (zextAddr nnn + zextByte (s.getV 0)))

/-- `SE Vx, kk` (R106). -/
def execSeImm (x : Reg) (kk : Byte) (s : State) : Result := skipIf (s.getV x == kk) s

/-- `SNE Vx, kk` (R107). -/
def execSneImm (x : Reg) (kk : Byte) (s : State) : Result := skipIf (s.getV x != kk) s

/-- `SE Vx, Vy` (R108). -/
def execSeReg (x y : Reg) (s : State) : Result := skipIf (s.getV x == s.getV y) s

/-- `SNE Vx, Vy` (R109). -/
def execSneReg (x y : Reg) (s : State) : Result := skipIf (s.getV x != s.getV y) s

/-- The `Invalid(w)` outcome at the executor (R110). -/
def execInvalid (w : Word) : Result := raise (.invalidOpcode w)

/-- `Step()` over an `Execute(op)` (R100). A fetch fault comes before everything else, then the invalid
word, then the instruction's own check (60_exceptions.md R213). A step does not tick the timers. -/
def cycle (execute : Instr → State → Result) (s : State) : Result :=
  match fetch s with
  | .error f => raise f
  | .ok w =>
    match decode w with
    | .invalid u => execInvalid u
    | .op i => execute i s.advance

end Sys2Proof.Machine
end

