-- ==== Sys2Proof/Machine/Index.lean ====
section
/-!
DEFINITION. The address register and the memory transfers (spec/44_index_memory.md R190 to R196).
-/

namespace Sys2Proof.Machine

/-- `LD I, nnn` (R190). -/
def execLdI (nnn : Addr12) (s : State) : Result := .next (s.setI (zextAddr nnn))

/-- `ADD I, Vx`: 16-bit wrap, no flag (R191). -/
def execAddI (x : Reg) (s : State) : Result := .next (s.setI (s.i + zextByte (s.getV x)))

/-- `LD F, Vx` (R192) for a font at `base`. -/
def ldFWith (base : Nat) (x : Reg) (s : State) : Result :=
  match glyphAddress base (s.getV x) with
  | some a => .next (s.setI a)
  | none => raise (.fontIndexOutOfRange (s.getV x))

/-- `LD F, Vx` under the default `FONT_BASE` (R192). -/
def execLdF (x : Reg) (s : State) : Result := ldFWith fontBase x s

/-- `LD B, Vx` (R193). -/
def execLdB (x : Reg) (s : State) : Result :=
  guardSpan s.i.toNat 3 <|
    .next (s.setMem (s.mem.writeSpan s.i.toNat (decimalDigits (s.getV x))))

/-- `LD [I], Vx`: `I` unchanged (R194). -/
def execStore (x : Reg) (s : State) : Result :=
  guardSpan s.i.toNat (x.val + 1) <|
    .next (s.setMem (s.mem.writeSpan s.i.toNat (regSpan s x)))

/-- `LD Vx, [I]`: `I` unchanged (R195). -/
def execLoad (x : Reg) (s : State) : Result :=
  guardSpan s.i.toNat (x.val + 1) <| .next (loadRegs s s.i.toNat x)

end Sys2Proof.Machine
end

