-- ==== Sys2Proof/Machine/Input.lean ====
section
/-!
DEFINITION. The input latch and timer instructions (spec/43_input_timers.md R175 to R181).
-/

namespace Sys2Proof.Machine

/-- The shared form of `SKP` and `SKNP`: skip when the key the register names is in the state
`pressed`, or `UndefinedKeyIndex` when it names no key (R175, R176, R181). -/
def skipOnKey (pressed : Bool) (x : Reg) (s : State) : Result :=
  match keyIndex (s.getV x) with
  | some k => skipIf (s.key k == pressed) s
  | none => raise (.undefinedKeyIndex (s.getV x))

/-- `SKP Vx` (R175). -/
def execSkp (x : Reg) (s : State) : Result := skipOnKey true x s

/-- `SKNP Vx` (R176). -/
def execSknp (x : Reg) (s : State) : Result := skipOnKey false x s

/-- `LD Vx, K` (R177): the least pressed key, or the instruction again at the next step. -/
def execLdVxK (x : Reg) (s : State) : Result :=
  match leastPressed s with
  | none => .next s.rewind
  | some k => .next (s.setV x (keyByte k))

/-- `LD Vx, DT` (R178). -/
def execLdVxDt (x : Reg) (s : State) : Result := .next (s.setV x s.dt)

/-- `LD DT, Vx` (R179). -/
def execLdDtVx (x : Reg) (s : State) : Result := .next (s.setDt (s.getV x))

/-- `LD ST, Vx` (R180). -/
def execLdStVx (x : Reg) (s : State) : Result := .next (s.setSt (s.getV x))

end Sys2Proof.Machine
end

