-- ==== Sys2Proof/Machine/Step.lean ====
section
/-!
DEFINITION. One transaction of the `step` port (spec/40_control_flow.md R100): fetch, decode,
pre-advance, execute.
-/

namespace Sys2Proof.Machine

/-- `Step()` (R100): one fetch, decode, pre-advance and `exec`. -/
def step (s : State) : Host.Outcome State Fault Refusal := cycle exec s

/-- `s` with the table word `w` where `step` fetches its next instruction. -/
def State.withFetchWord (s : State) (nbits w : Nat) : State := placeWord s (tableWord nbits w)

end Sys2Proof.Machine
end

