-- ==== Sys2Proof/Machine/Parametric.lean ====
section
/-!
DEFINITION. The machine with its parameters as an argument (spec/00_scope.md R7). At `defaultParams` it
is the machine of Dispatch.lean and Step.lean (Laws/Params.lean).
-/

namespace Sys2Proof.Machine

/-- `Execute(op)` of the machine with parameters `p`: the operations a parameter reaches take it (R101,
R133, R144, R192), every other operation is as in `exec`. -/
def execWith (p : Params) (i : Instr) (s : State) : Result :=
  match i with
  | .sys nnn => sysEffect p.sysBehaviour (encode (.sys nnn)) s
  | .addReg x y => addRegWith p.flagWriteOrder x y s
  | .sub x y => subWith p.flagWriteOrder x y s
  | .shr x => shrWith p.flagWriteOrder x s
  | .subn x y => subnWith p.flagWriteOrder x y s
  | .shl x => shlWith p.flagWriteOrder x s
  | .rnd x kk => rndWith p.rnd x kk s
  | .ldF x => ldFWith p.fontBase x s
  | .cls | .ret | .jp _ | .call _ | .jpV0 _
  | .seImm _ _ | .sneImm _ _ | .seReg _ _ | .sneReg _ _
  | .ldImm _ _ | .addImm _ _ | .ldReg _ _ | .orReg _ _ | .andReg _ _ | .xorReg _ _
  | .drw _ _ _ | .skp _ | .sknp _ | .ldVxDt _ | .ldVxK _ | .ldDtVx _ | .ldStVx _
  | .ldI _ | .addI _ | .ldB _ | .store _ | .load _ => exec i s

/-- `Step()` of the machine with parameters `p` (40_control_flow.md R100). -/
def stepWith (p : Params) (s : State) : Result := cycle (execWith p) s

/-- The machine with parameters `p` behind the host's interface. -/
def coreWith (p : Params) : Host.Core where
  State := State
  Fault := Fault
  Refusal := Refusal
  step := stepWith p
  reset := State.resetWith p

end Sys2Proof.Machine
end

