-- ==== Sys2Proof/Machine/Ports.lean ====
section
/-!
DEFINITION. The ports through which the host drives the block (spec/00_scope.md R5, R12;
60_exceptions.md R211, R225 to R230; 70_reset_and_hazards.md R240, R241). A run of the block with its
host is a list of transactions, in any order the host likes (log entry 7).
-/

namespace Sys2Proof.Machine

/-- The faults of the `load` port (60_exceptions.md R211). -/
inductive LoadFault where
  /-- Raised by `load` for an image longer than `MAX_IMAGE` (R241). Safe. -/
  | imageTooLarge
  /-- Raised by nothing in the block: it belongs to the file reading outside (R211). Safe. -/
  | ioFailure
  deriving DecidableEq, Repr

/-- The numeric code of a step fault (R211). -/
def Fault.code : Fault → Nat
  | .stackOverflow => 1
  | .stackUnderflow => 2
  | .invalidMemoryAccess _ => 3
  | .invalidOpcode _ => 4
  | .invalidRegister _ => 5
  | .fontIndexOutOfRange _ => 6
  | .undefinedKeyIndex _ => 7

/-- The number after the `L` in the code of a load fault (R211). -/
def LoadFault.code : LoadFault → Nat
  | .imageTooLarge => 1
  | .ioFailure => 2

/-- A transaction of the host (60_exceptions.md R230). The key index has 4 bits (R226). -/
inductive Transaction where
  | load (image : List Byte)
  | step
  | tick
  | setKey (k : Key) (p : Bool)
  | readDisplay
  | readTimers
  deriving DecidableEq, Repr

/-- What a transaction returns to the host: exactly one outcome (00_scope.md R12). -/
inductive Reply where
  | ok
  | fault (f : Fault)
  | refused (r : Refusal)
  | loadFault (l : LoadFault)
  | display (cells : List Bool)
  | timers (dt st : Byte)
  deriving DecidableEq, Repr

/-- `Load(image)` (R241) with the reset state `clean`: an oversized image changes nothing. The random
input goes on where it was, since the spec gives no relation between draws (log entry 5). -/
def loadImage (p : Params) (clean : State) (image : List Byte) (s : State) : Reply × State :=
  if p.maxImage < image.length then (.loadFault .imageTooLarge, s)
  else (.ok, { clean with mem := clean.mem.writeSpan p.programStart image, draws := s.draws })

/-- `Load(image)` under the default parameters. -/
def loadPort (image : List Byte) (s : State) : Reply × State := loadImage defaultParams State.reset image s

/-- The `step` port's reply to a step of `s` that ended in `r`, and the state it leaves, after a fault
too (60_exceptions.md R212, R215). -/
def replyToStep (r : Result) (s : State) : Reply × State :=
  match r with
  | .next t => (.ok, t)
  | .fault f => (.fault f, afterFault s)
  | .refused q => (.refused q, s)

/-- The `step` port under the default parameters. -/
def stepPort (s : State) : Reply × State := replyToStep (Sys2Proof.Machine.step s) s

/-- A countdown saturating at zero (R225). -/
def countDown (b : Byte) : Byte := if b = 0 then b else b - 1

/-- `Tick()` (R225). -/
def tickPort (s : State) : State := (s.setDt (countDown s.dt)).setSt (countDown s.st)

/-- `set_key(k, p)`: `K[k] <- p` and nothing else (R226). -/
def setKeyPort (k : Key) (p : Bool) (s : State) : State := { s with keys := s.keys.set k.val p }

/-- The 2048 cells in row-major order: element `y * 64 + x` is `D[x, y]` (R227). -/
def displayCells (s : State) : List Bool := (s.display.toList.map Vector.toList).flatten

/-- One transaction of the host: its reply and the state it leaves (R230). -/
def transact (tr : Transaction) (s : State) : Reply × State :=
  match tr with
  | .load image => loadPort image s
  | .step => stepPort s
  | .tick => (.ok, tickPort s)
  | .setKey k p => (.ok, setKeyPort k p s)
  | .readDisplay => (.display (displayCells s), s)
  | .readTimers => (.timers s.dt s.st, s)

/-- The state after a sequence of transactions. Every interleaving the host may choose is some list
(93_implementation_defined.md U14, U15). -/
def afterAll : List Transaction → State → State
  | [], s => s
  | tr :: trs, s => afterAll trs (transact tr s).2

/-- One transaction of the machine with parameters `p`: `load` and `step` take them, the other ports
read none (00_scope.md R7). -/
def transactWith (p : Params) (tr : Transaction) (s : State) : Reply × State :=
  match tr with
  | .load image => loadImage p (State.resetWith p) image s
  | .step => replyToStep (stepWith p s) s
  | .tick | .setKey _ _ | .readDisplay | .readTimers => transact tr s

/-- The state of the machine with parameters `p` after a sequence of transactions. -/
def afterAllWith (p : Params) : List Transaction → State → State
  | [], s => s
  | tr :: trs, s => afterAllWith p trs (transactWith p tr s).2

end Sys2Proof.Machine
end

