-- ==== Sys2Proof/Safety.lean ====
section
/-!
DEFINITION. The terms the statements use: a step that raises no fault, the end of a run
(spec/70_reset_and_hazards.md R243), what an operation may write (10_state.md R33), and the invariant
of every state a host can bring about.
-/

namespace Sys2Proof.Machine

/-- The step raises no fault. -/
def Safe (s : State) : Prop := ∃ t, step s = .next t

/-- The end of a run without a fault (R243): the fetched word is `JP nnn` with `nnn` its own address. -/
def SelfJump (s : State) : Prop :=
  ∃ w nnn, fetch s = .ok w ∧ decode w = .op (.jp nnn) ∧ zextAddr nnn = s.pc

/-- The operation that stands where `s` fetches. -/
def FetchesOp (s : State) (i : Instr) : Prop := ∃ w, fetch s = .ok w ∧ decode w = .op i

/-- The word at the program counter, where both its bytes are in range (20_memory.md R55). -/
def wordAtPc (s : State) : Word :=
  wordOfBytes (s.mem.read s.pc.toNat) (s.mem.read (s.pc.toNat + 1))

/-- Which parts of the state an operation may write, `PC` apart. `memLen` bytes from `memBase` may
change; no operation writes a key (R29). -/
structure Writes where
  regs : List Reg := []
  index : Bool := false
  stack : Bool := false
  delay : Bool := false
  sound : Bool := false
  memBase : Nat := 0
  memLen : Nat := 0
  display : Bool := false
  draws : Bool := false
  deriving DecidableEq, Repr

/-- `t` differs from `s` in nothing but `PC` and what `w` lets change. -/
def Frame (w : Writes) (s t : State) : Prop :=
  (∀ r, r ∉ w.regs → t.getV r = s.getV r) ∧
  (w.index = false → t.i = s.i) ∧
  (w.stack = false → t.sp = s.sp ∧ t.stack = s.stack) ∧
  (w.delay = false → t.dt = s.dt) ∧
  (w.sound = false → t.st = s.st) ∧
  (∀ a, a < w.memBase ∨ w.memBase + w.memLen ≤ a → t.mem.read a = s.mem.read a) ∧
  (w.display = false → ∀ x y, t.pixel x y = s.pixel x y) ∧
  t.keys = s.keys ∧
  (w.draws = false → t.draws = s.draws)

/-- The write column of the access summary R33, per operation, with the flag side effects of R21. The
stored bytes of `LD B` and `LD [I]` start at the value of `I`. -/
def writesOf (i : Instr) (s : State) : Writes :=
  match i with
  | .sys _ | .jp _ | .jpV0 _ => {}
  | .seImm _ _ | .sneImm _ _ | .seReg _ _ | .sneReg _ _ | .skp _ | .sknp _ => {}
  | .cls => { display := true }
  | .ret | .call _ => { stack := true }
  | .ldImm x _ | .addImm x _ | .ldReg x _ | .orReg x _ | .andReg x _ | .xorReg x _ => { regs := [x] }
  | .ldVxDt x | .ldVxK x => { regs := [x] }
  | .addReg x _ | .sub x _ | .shr x | .subn x _ | .shl x => { regs := [x, flagReg] }
  | .rnd x _ => { regs := [x], draws := true }
  | .ldI _ | .addI _ | .ldF _ => { index := true }
  | .drw _ _ _ => { regs := [flagReg], display := true }
  | .ldDtVx _ => { delay := true }
  | .ldStVx _ => { sound := true }
  | .ldB _ => { memBase := s.i.toNat, memLen := 3 }
  | .store x => { memBase := s.i.toNat, memLen := x.val + 1 }
  | .load x => { regs := (List.finRange 16).filter (fun r => r ≤ x) }

/-- What holds of every state a host can bring about: memory in its canonical form, every valid stack
entry a return address of at most 0x1000, and `PC` at most 0x10FE, the furthest target of any transfer
(40_control_flow.md R100, R105; 90_conflicts.md C4). -/
def Inv (s : State) : Prop :=
  s.mem.wf ∧ s.pc.toNat ≤ 0x10FE ∧ ∀ j : Fin 16, j.val < s.sp.val → s.stack[j.val].toNat ≤ 0x1000

/-- The two states hold the same in everything but the hidden stack entries at and above `SP`
(10_state.md R26). -/
def VisiblyEqual (s t : State) : Prop :=
  s.v = t.v ∧ s.i = t.i ∧ s.pc = t.pc ∧ s.sp = t.sp ∧ s.dt = t.dt ∧ s.st = t.st ∧ s.mem = t.mem ∧
  s.display = t.display ∧ s.keys = t.keys ∧ s.draws = t.draws ∧
  ∀ j : Fin 16, j.val < s.sp.val → s.stack[j.val] = t.stack[j.val]

/-- The sprite of the `n` memory bytes at `base`, drawn at `(cx, cy)`, has a set bit on the cell
`(px, py)`: some row `r` and column `c`, bit `7 - c` of its byte, land there modulo the display's size
(42_display.md R161, R162). -/
def Covers (m : Memory) (base n cx cy : Nat) (px : Fin 64) (py : Fin 32) : Prop :=
  ∃ r c, r < n ∧ c < 8 ∧ (m.read (base + r)).getLsbD (7 - c) = true ∧
    (cx + c) % 64 = px.val ∧ (cy + r) % 32 = py.val

end Sys2Proof.Machine
end

