-- ==== Sys2Proof/Certificates/Slice0/Obligations.lean ====
section
/-!
DEFINITION. The statements about the machine, rule by rule of spec/. A meaning (`exec`) runs after the
pre-advance of 40_control_flow.md R100, so in a statement about `exec` the state's `pc` is the
instruction's address plus 2.
-/

open Sys2Proof Sys2Proof.Machine

/-! ## Encoding and decoding (30_encoding.md) -/

/-- Decoding the word of a well-formed operation gives the operation back, with every operand at every
value (R71, R76, R77). -/
def Obligations.DecodeOfEncodeIsIdentity : Prop :=
  ∀ i : Instr, i.wellFormed = true → decode (encode i) = .op i

/-- The operation a word decodes to is well formed and assembles to the same word, but for the `y` bits
of SHR and SHL, which are ignored (R79, R81). -/
def Obligations.EncodeOfDecodeRestoresWord : Prop :=
  ∀ (w : Word) (i : Instr), decode w = .op i →
    i.wellFormed = true ∧
      (encode i = w ∨ ((∃ x, i = .shr x ∨ i = .shl x) ∧ encode i = (w &&& 0xFF0F#16)))

/-- The decoder answers a row's operation exactly for the words that agree with the row's pattern under
its mask, so every row is reached and no word lies in two rows (R75, R76). -/
def Obligations.OpcodeTableAgreesWithDecoder : Prop :=
  opcodeTable.map OpcodeRow.number = (List.range 35).map (· + 1) ∧
  ∀ row ∈ opcodeTable, ∀ w : Word,
    row.accepts w = true ↔ ∃ i, decode w = .op i ∧ i.rowNumber = row.number

/-- Which words are invalid, that the outcome carries the raw word, and how many of each family there
are: 48,048 valid words and 17,488 invalid ones (R78, R79). -/
def Obligations.InvalidWordsAreExactlyTheListed : Prop :=
  (∀ w u : Word, decode w = .invalid u → u = w) ∧
  (∀ w : Word, decode w = .invalid w ↔
    (fieldOp w = 0x5 ∧ fieldN w ≠ 0x0) ∨
    (fieldOp w = 0x8 ∧ fieldN w ∈ ([0x8, 0x9, 0xA, 0xB, 0xC, 0xD, 0xF] : List (Fin 16))) ∨
    (fieldOp w = 0x9 ∧ fieldN w ≠ 0x0) ∨
    (fieldOp w = 0xE ∧ fieldKk w ∉ ([0x9E, 0xA1] : List Byte)) ∨
    (fieldOp w = 0xF ∧
      fieldKk w ∉ ([0x07, 0x0A, 0x15, 0x18, 0x1E, 0x29, 0x33, 0x55, 0x65] : List Byte))) ∧
  (let invalidIn := fun op : Nat => ((List.range 4096).filter fun l =>
      decide (decode (BitVec.ofNat 16 (op * 4096 + l)) =
        .invalid (BitVec.ofNat 16 (op * 4096 + l)))).length
   invalidIn 0x5 = 3840 ∧ invalidIn 0x8 = 1792 ∧ invalidIn 0x9 = 3840 ∧ invalidIn 0xE = 4064 ∧
   invalidIn 0xF = 3952 ∧ ((List.range 16).map invalidIn).sum = 17488 ∧
   65536 - ((List.range 16).map invalidIn).sum = 48048)

/-- Words written out from the table's patterns, at least one of each of the sixteen families, the values
of the top nibble (R74, R76). -/
def Obligations.SampleWordsDecode : Prop :=
  decode 0x0123#16 = .op (.sys 0x123) ∧ decode 0x00E0#16 = .op .cls ∧ decode 0x00EE#16 = .op .ret ∧
  decode 0x00E1#16 = .op (.sys 0x0E1) ∧ decode 0x1FFF#16 = .op (.jp 0xFFF) ∧
  decode 0x2210#16 = .op (.call 0x210) ∧ decode 0x3305#16 = .op (.seImm 3 0x05) ∧
  decode 0x4305#16 = .op (.sneImm 3 0x05) ∧ decode 0x6A7B#16 = .op (.ldImm 10 0x7B) ∧
  decode 0x7301#16 = .op (.addImm 3 0x01) ∧ decode 0x9120#16 = .op (.sneReg 1 2) ∧
  decode 0x9121#16 = .invalid 0x9121 ∧ decode 0xA300#16 = .op (.ldI 0x300) ∧
  decode 0x5120#16 = .op (.seReg 1 2) ∧ decode 0x5121#16 = .invalid 0x5121 ∧
  decode 0x8AB4#16 = .op (.addReg 10 11) ∧ decode 0x8008#16 = .invalid 0x8008 ∧
  decode 0x840E#16 = .op (.shl 4) ∧ decode 0xB123#16 = .op (.jpV0 0x123) ∧
  decode 0xC30F#16 = .op (.rnd 3 0x0F) ∧ decode 0xD125#16 = .op (.drw 1 2 5) ∧
  decode 0xE19E#16 = .op (.skp 1) ∧ decode 0xE19F#16 = .invalid 0xE19F ∧
  decode 0xF00A#16 = .op (.ldVxK 0) ∧ decode 0xFF65#16 = .op (.load 15) ∧
  decode 0xF166#16 = .invalid 0xF166

/-! ## The step (20_memory.md R55, 40_control_flow.md R100, R110, R111; 60_exceptions.md) -/

/-- When the two bytes at `PC`, most significant first, decode to an operation, the step runs exactly
that operation on the state with `PC` advanced by 2, and the advance does not wrap (R55, R100). -/
def Obligations.StepRunsDecodedInstruction : Prop :=
  ∀ (s : State) (w : Word) (i : Instr), s.pc.toNat + 1 < 4096 →
    w.toNat = (s.mem.read s.pc.toNat).toNat * 256 + (s.mem.read (s.pc.toNat + 1)).toNat →
    decode w = .op i →
    step s = exec i { s with pc := s.pc + 2#16 } ∧ (s.pc + 2#16).toNat = s.pc.toNat + 2

/-- A fetch with a byte out of range faults with the lower such address, and changes nothing; the next
step faults the same way (R55, R100, R215; the check of the second byte is the spec's own inference). -/
def Obligations.FetchOutOfRangeFaults : Prop :=
  ∀ s : State,
    (4096 ≤ s.pc.toNat →
      step s = .fault (.invalidMemoryAccess s.pc.toNat) ∧
      stepPort s = (.fault (.invalidMemoryAccess s.pc.toNat), s)) ∧
    (s.pc.toNat = 4095 →
      step s = .fault (.invalidMemoryAccess 4096) ∧
      stepPort s = (.fault (.invalidMemoryAccess 4096), s))

/-- A fetched word outside the table faults as an invalid opcode, after the pre-advance (R80, R110; the
state left is decision D15 of the spec). -/
def Obligations.InvalidWordFaults : Prop :=
  ∀ (s : State) (w : Word), s.pc.toNat + 1 < 4096 →
    w.toNat = (s.mem.read s.pc.toNat).toNat * 256 + (s.mem.read (s.pc.toNat + 1)).toNat →
    decode w = .invalid w →
    step s = .fault (.invalidOpcode w) ∧
    stepPort s = (.fault (.invalidOpcode w), { s with pc := s.pc + 2#16 })

/-- After a step without a fault, where `PC` is, operation by operation: plus 2, plus 4 on a matching
skip, unchanged on the key wait, or the target of a transfer; no addition wraps (R111, an inference of
the spec). -/
def Obligations.ProgramCounterAfterStep : Prop :=
  ∀ s t : State, step s = .next t → ∃ i, FetchesOp s i ∧
    match i with
    | .jp nnn | .call nnn => t.pc.toNat = nnn.toNat
    | .jpV0 nnn => t.pc.toNat = nnn.toNat + (s.getV 0).toNat
    | .ret => 0 < s.sp.val ∧ ∀ j : Fin 16, j.val + 1 = s.sp.val → t.pc = s.stack[j.val]
    | .seImm x kk => t.pc.toNat = s.pc.toNat + if s.getV x = kk then 4 else 2
    | .sneImm x kk => t.pc.toNat = s.pc.toNat + if s.getV x = kk then 2 else 4
    | .seReg x y => t.pc.toNat = s.pc.toNat + if s.getV x = s.getV y then 4 else 2
    | .sneReg x y => t.pc.toNat = s.pc.toNat + if s.getV x = s.getV y then 2 else 4
    | .skp x => ∃ k : Key, k.val = (s.getV x).toNat ∧
        t.pc.toNat = s.pc.toNat + if s.key k then 4 else 2
    | .sknp x => ∃ k : Key, k.val = (s.getV x).toNat ∧
        t.pc.toNat = s.pc.toNat + if s.key k then 2 else 4
    | .ldVxK _ => ((∀ k, s.key k = false) → t.pc = s.pc) ∧
        ((∃ k, s.key k = true) → t.pc.toNat = s.pc.toNat + 2)
    | .sys _ | .cls | .ldImm _ _ | .addImm _ _ | .ldReg _ _ | .orReg _ _ | .andReg _ _ | .xorReg _ _
    | .addReg _ _ | .sub _ _ | .shr _ | .subn _ _ | .shl _ | .ldI _ | .rnd _ _ | .drw _ _ _
    | .ldVxDt _ | .ldDtVx _ | .ldStVx _ | .addI _ | .ldF _ | .ldB _ | .store _ | .load _ =>
        t.pc.toNat = s.pc.toNat + 2

/-- A step that faults changes nothing but `PC`: not even that on a fetch fault, and plus 2 on any
other (R212, decision D15 of the spec). -/
def Obligations.FaultsArePrecise : Prop :=
  ∀ (s t : State) (f : Fault), stepPort s = (.fault f, t) →
    (fetch s = .error f ∧ t = s) ∨
    ((∃ w, fetch s = .ok w) ∧ t = { s with pc := s.pc + 2#16 } ∧ t.pc.toNat = s.pc.toNat + 2)

/-- Every fault has the cause the fault table gives it, carries the information the table gives it, and
no other fault occurs; a recorded address is out of range, the lowest of its access, and has 16 bits
(R211, R213; the key fault and the codes are decisions of the spec). -/
def Obligations.FaultsHaveTheirStatedCause : Prop :=
  ∀ (s : State) (f : Fault), step s = .fault f →
    match f with
    | .stackOverflow => s.sp.val = 16 ∧ ∃ nnn, FetchesOp s (.call nnn)
    | .stackUnderflow => s.sp.val = 0 ∧ FetchesOp s .ret
    | .invalidMemoryAccess a => 4096 ≤ a ∧ a ≤ 0xFFFF ∧
        ((4096 ≤ s.pc.toNat + 1 ∧ a = max s.pc.toNat 4096) ∨
         (a = max s.i.toNat 4096 ∧
          ((∃ x y n, FetchesOp s (.drw x y n) ∧ 0 < n.val ∧ 4096 < s.i.toNat + n.val) ∨
           (∃ x, FetchesOp s (.ldB x) ∧ 4096 ≤ s.i.toNat + 2) ∨
           (∃ x, (FetchesOp s (.store x) ∨ FetchesOp s (.load x)) ∧ 4096 ≤ s.i.toNat + x.val))))
    | .invalidOpcode w => fetch s = .ok w ∧
        (decode w = .invalid w ∨ (sysBehaviour = .fault ∧ ∃ nnn, decode w = .op (.sys nnn)))
    | .invalidRegister _ => False
    | .fontIndexOutOfRange b => 15 < b.toNat ∧ ∃ x, FetchesOp s (.ldF x) ∧ b = s.getV x
    | .undefinedKeyIndex b => 15 < b.toNat ∧
        ∃ x, (FetchesOp s (.skp x) ∨ FetchesOp s (.sknp x)) ∧ b = s.getV x

/-- No operation is privileged or missing: neither an operation nor a step is ever refused (R217). -/
def Obligations.NothingIsRefused : Prop :=
  (∀ (i : Instr) (s : State) (r : Refusal), exec i s ≠ .refused r) ∧
  ∀ (s : State) (r : Refusal), step s ≠ .refused r

/-- An operation writes nothing but `PC` and what the access summary lets it write: in particular the
flag only by the six flagged operations or a destination `x = 15`, no key, no timer by a step but by its
own `LD`, memory only by LD B and LD [I], at `I` (10_state.md R21, R23, R25, R28, R29, R33). -/
def Obligations.OperationsWriteOnlyWhatTheSummaryLists : Prop :=
  ∀ (i : Instr) (s t : State), exec i s = .next t → Frame (writesOf i s) s t

/-- Stack entries at and above `SP` are hidden: no transaction of any port, the steps among them,
answers or leaves anything visible that depends on them (10_state.md R26, an inference of the spec). -/
def Obligations.HiddenStackEntriesAreUnobservable : Prop :=
  ∀ (s t : State) (tr : Transaction), VisiblyEqual s t →
    (transact tr s).1 = (transact tr t).1 ∧ VisiblyEqual (transact tr s).2 (transact tr t).2

/-- No operation reads the sound timer: whatever it holds, every transaction but `read_timers` answers
the same and leaves the same, the sound timer itself apart (10_state.md R27). -/
def Obligations.SoundTimerInfluencesNothing : Prop :=
  ∀ (s : State) (b : Byte) (tr : Transaction), tr ≠ .readTimers →
    (transact tr { s with st := b }).1 = (transact tr s).1 ∧
    { (transact tr { s with st := b }).2 with st := 0 } = { (transact tr s).2 with st := 0 }

/-! ## Reset and the invariant (10_state.md R34; 70_reset_and_hazards.md R240) -/

/-- The reset state, field by field (R34, R240), under any parameters and under the defaults.
`PROGRAM_START` and the font bytes are the parameters of log entries 1 and 2; the empty stack, the
released keys and the font in memory are decisions D18 and D3 of the spec. -/
def Obligations.ResetStateIsAsListed : Prop :=
  (∀ r, State.reset.getV r = 0) ∧ State.reset.i = 0 ∧ State.reset.pc.toNat = programStart ∧
  State.reset.sp = 0 ∧ (∀ j : Fin 16, State.reset.stack[j.val] = 0) ∧
  State.reset.dt = 0 ∧ State.reset.st = 0 ∧ (∀ x y, State.reset.pixel x y = false) ∧
  (∀ k, State.reset.key k = false) ∧
  (∀ a, a < 80 → fontImage[a]? = some (State.reset.mem.read a)) ∧
  (∀ a, 80 ≤ a → State.reset.mem.read a = 0) ∧
  ∀ p : Params, p.wf →
    { State.resetWith p with pc := State.reset.pc, mem := State.reset.mem } = State.reset ∧
    (State.resetWith p).pc.toNat = p.programStart ∧
    (∀ a, a < 80 → p.fontImage[a]? = some ((State.resetWith p).mem.read (p.fontBase + a))) ∧
    (∀ a, a < 4096 → a < p.fontBase ∨ p.fontBase + 80 ≤ a → (State.resetWith p).mem.read a = 0)

/-- The invariant holds of the reset state, under any parameters and under the defaults. -/
def Obligations.InvariantHoldsAtReset : Prop :=
  Inv State.reset ∧ ∀ p : Params, p.wf → Inv (State.resetWith p)

/-- Every step keeps the invariant: memory canonical, `PC` at most 0x10FE, every valid stack entry at
most 0x1000, under any parameters and under the defaults. The bounds are read from R24, R25, R100 and
R105 (90_conflicts.md C4). -/
def Obligations.StepKeepsInvariant : Prop :=
  (∀ s t : State, Inv s → step s = .next t → Inv t) ∧
  ∀ (p : Params) (s t : State), Inv s → stepWith p s = .next t → Inv t

/-- Every sequence of host transactions keeps the invariant, whatever the interleaving of steps, ticks,
keys and loads, with steps taken after a fault, under any parameters and under the defaults
(60_exceptions.md R215, R230). -/
def Obligations.EveryTransactionSequenceKeepsInvariant : Prop :=
  ∀ (trs : List Transaction) (s : State), Inv s →
    Inv (afterAll trs s) ∧ ∀ p : Params, p.wf → Inv (afterAllWith p trs s)

/-! ## Control transfer (40_control_flow.md R101 to R109) -/

/-- `SYS nnn` under the model's `SYS_BEHAVIOUR`, the spec's default `nop` (log entry 4), completes with
nothing changed; the parameter is an argument, and under the other value it raises `InvalidOpcode` with
its word (R101, D9). -/
def Obligations.SysCompletesAsNop : Prop :=
  ∀ (nnn : Addr12) (w : Word) (s : State),
    exec (.sys nnn) s = .next s ∧
    exec (.sys nnn) s = sysEffect sysBehaviour (encode (.sys nnn)) s ∧
    (∀ p : Params, execWith p (.sys nnn) s = sysEffect p.sysBehaviour (encode (.sys nnn)) s) ∧
    (encode (.sys nnn)).toNat = nnn.toNat ∧
    sysEffect .nop w s = .next s ∧ sysEffect .fault w s = .fault (.invalidOpcode w)

/-- `JP nnn` (R102). -/
def Obligations.JpSetsPc : Prop :=
  ∀ (nnn : Addr12) (s : State), ∃ t, exec (.jp nnn) s = .next t ∧
    t.pc.toNat = nnn.toNat ∧ Frame {} s t

/-- `JP V0, nnn`: the sum does not wrap (R105). -/
def Obligations.JpV0AddsRegisterZero : Prop :=
  ∀ (nnn : Addr12) (s : State), ∃ t, exec (.jpV0 nnn) s = .next t ∧
    t.pc.toNat = nnn.toNat + (s.getV 0).toNat ∧ t.pc.toNat ≤ 0x10FE ∧ Frame {} s t

/-- `RET` (R103): the top entry to `PC`, `SP` down by one, the entries kept; underflow when empty. -/
def Obligations.RetPopsOrUnderflows : Prop :=
  ∀ s : State,
    (0 < s.sp.val → ∃ t, exec .ret s = .next t ∧ t.sp.val + 1 = s.sp.val ∧ t.stack = s.stack ∧
      (∀ j : Fin 16, j.val + 1 = s.sp.val → t.pc = s.stack[j.val]) ∧ Frame { stack := true } s t) ∧
    (s.sp.val = 0 → exec .ret s = .fault .stackUnderflow)

/-- `CALL nnn` (R104): the pre-advanced `PC` pushed, `SP` up by one; on a full stack the overflow fault,
which leaves the stack and `SP` and only the advanced `PC`. -/
def Obligations.CallPushesOrOverflows : Prop :=
  ∀ (nnn : Addr12) (s : State),
    (s.sp.val < 16 → ∃ t, exec (.call nnn) s = .next t ∧ t.sp.val = s.sp.val + 1 ∧
      (∀ j : Fin 16, t.stack[j.val] = if j.val = s.sp.val then s.pc else s.stack[j.val]) ∧
      t.pc.toNat = nnn.toNat ∧ Frame { stack := true } s t) ∧
    (s.sp.val = 16 → exec (.call nnn) s = .fault .stackOverflow) ∧
    (s.sp.val = 16 → FetchesOp s (.call nnn) →
      stepPort s = (.fault .stackOverflow, { s with pc := s.pc + 2#16 }))

/-- A `RET` that finds the stack as a `CALL` left it goes to the address after the `CALL`, and the stack
depth is as before it (R103, R104). -/
def Obligations.RetReturnsBehindTheCall : Prop :=
  ∀ (nnn : Addr12) (s t u : State), exec (.call nnn) s = .next t → u.sp = t.sp → u.stack = t.stack →
    ∃ r, exec .ret u = .next r ∧ r.pc = s.pc ∧ r.sp = s.sp

/-- The four skips (R106 to R109): one more increment of 2 when the condition holds, and nothing else
changes in either case. -/
def Obligations.SkipsTestTheirCondition : Prop :=
  ∀ (x y : Reg) (kk : Byte) (s : State),
    exec (.seImm x kk) s = .next (if s.getV x = kk then { s with pc := s.pc + 2#16 } else s) ∧
    exec (.sneImm x kk) s = .next (if s.getV x = kk then s else { s with pc := s.pc + 2#16 }) ∧
    exec (.seReg x y) s = .next (if s.getV x = s.getV y then { s with pc := s.pc + 2#16 } else s) ∧
    exec (.sneReg x y) s = .next (if s.getV x = s.getV y then s else { s with pc := s.pc + 2#16 })

/-- A jump to itself ends a run: the step changes nothing (70_reset_and_hazards.md R243, decision D17
of the spec). -/
def Obligations.SelfJumpChangesNothing : Prop :=
  ∀ s : State, SelfJump s → step s = .next s

/-! ## The ALU (41_alu.md R130 to R144) -/

/-- `LD Vx, kk`, `x = 15` included (R130). -/
def Obligations.LdImmLoadsImmediate : Prop :=
  ∀ (x : Reg) (kk : Byte) (s : State), ∃ t, exec (.ldImm x kk) s = .next t ∧
    t.getV x = kk ∧ Frame { regs := [x] } s t ∧ t.pc = s.pc

/-- `ADD Vx, kk` wraps modulo 256 and writes no flag (R131; that there is no flag is decision D8 of the
spec). -/
def Obligations.AddImmWrapsWithoutFlag : Prop :=
  ∀ (x : Reg) (kk : Byte) (s : State), ∃ t, exec (.addImm x kk) s = .next t ∧
    (t.getV x).toNat = ((s.getV x).toNat + kk.toNat) % 256 ∧ Frame { regs := [x] } s t ∧ t.pc = s.pc

/-- `LD Vx, Vy`, `OR`, `AND`, `XOR` write `V[x]` and no flag (R135 to R138; that there is no flag is
decision D8 of the spec, in R134). -/
def Obligations.CopyAndLogicWriteTheirResult : Prop :=
  ∀ (x y : Reg) (s : State),
    (∃ t, exec (.ldReg x y) s = .next t ∧ t.getV x = s.getV y ∧ Frame { regs := [x] } s t ∧ t.pc = s.pc) ∧
    (∃ t, exec (.orReg x y) s = .next t ∧
      (∀ b, (t.getV x).getLsbD b = ((s.getV x).getLsbD b || (s.getV y).getLsbD b)) ∧
      Frame { regs := [x] } s t ∧ t.pc = s.pc) ∧
    (∃ t, exec (.andReg x y) s = .next t ∧
      (∀ b, (t.getV x).getLsbD b = ((s.getV x).getLsbD b && (s.getV y).getLsbD b)) ∧
      Frame { regs := [x] } s t ∧ t.pc = s.pc) ∧
    (∃ t, exec (.xorReg x y) s = .next t ∧
      (∀ b, (t.getV x).getLsbD b = ((s.getV x).getLsbD b ^^ (s.getV y).getLsbD b)) ∧
      Frame { regs := [x] } s t ∧ t.pc = s.pc)

/-- `ADD Vx, Vy` (R139): the sum modulo 256 and the carry. For `x = 15` the parameter `FLAG_WRITE_ORDER`
says which of the two `VF` ends holding (R133). -/
def Obligations.AddRegWritesSumAndCarry : Prop :=
  ∀ (x y : Reg) (s : State),
    let sum := (s.getV x).toNat + (s.getV y).toNat
    ∃ t, exec (.addReg x y) s = .next t ∧
      (x ≠ 15 → (t.getV x).toNat = sum % 256) ∧
      (t.getV 15).toNat =
        (if x = 15 ∧ flagWriteOrder = .resultLast then sum % 256 else if 256 ≤ sum then 1 else 0) ∧
      Frame { regs := [x, 15] } s t ∧ t.pc = s.pc

/-- `SUB Vx, Vy` (R140): the difference modulo 256 and the not-borrow, 1 for equal operands; `x = 15` as
in R133. -/
def Obligations.SubWritesDifferenceAndNotBorrow : Prop :=
  ∀ (x y : Reg) (s : State),
    let a := (s.getV x).toNat
    let b := (s.getV y).toNat
    ∃ t, exec (.sub x y) s = .next t ∧
      (x ≠ 15 → (t.getV x).toNat = (256 + a - b) % 256) ∧
      (t.getV 15).toNat =
        (if x = 15 ∧ flagWriteOrder = .resultLast then (256 + a - b) % 256
         else if b ≤ a then 1 else 0) ∧
      Frame { regs := [x, 15] } s t ∧ t.pc = s.pc

/-- `SUBN Vx, Vy` (R142): the same with the operands swapped. -/
def Obligations.SubnWritesReverseDifference : Prop :=
  ∀ (x y : Reg) (s : State),
    let a := (s.getV x).toNat
    let b := (s.getV y).toNat
    ∃ t, exec (.subn x y) s = .next t ∧
      (x ≠ 15 → (t.getV x).toNat = (256 + b - a) % 256) ∧
      (t.getV 15).toNat =
        (if x = 15 ∧ flagWriteOrder = .resultLast then (256 + b - a) % 256
         else if a ≤ b then 1 else 0) ∧
      Frame { regs := [x, 15] } s t ∧ t.pc = s.pc

/-- `SHR Vx` and `SHL Vx` shift `Vx` by one and put the bit shifted out into `VF` (R141, R143; that the
shifted register is `Vx` is decision D5 of the spec); `x = 15` as in R133. -/
def Obligations.ShiftsWriteResultAndBitShiftedOut : Prop :=
  ∀ (x : Reg) (s : State),
    let a := (s.getV x).toNat
    (∃ t, exec (.shr x) s = .next t ∧
      (x ≠ 15 → (t.getV x).toNat = a / 2) ∧
      (t.getV 15).toNat = (if x = 15 ∧ flagWriteOrder = .resultLast then a / 2 else a % 2) ∧
      Frame { regs := [x, 15] } s t ∧ t.pc = s.pc) ∧
    (∃ t, exec (.shl x) s = .next t ∧
      (x ≠ 15 → (t.getV x).toNat = a * 2 % 256) ∧
      (t.getV 15).toNat = (if x = 15 ∧ flagWriteOrder = .resultLast then a * 2 % 256 else a / 128) ∧
      Frame { regs := [x, 15] } s t ∧ t.pc = s.pc)

/-- The flagged write under both values of `FLAG_WRITE_ORDER` (R133), the five flagged operations with
that parameter as an argument, and the model's choice of the spec's default `flag_last` (log entry 3),
under which `VF` ends holding the flag. -/
def Obligations.FlagWriteOrderDecidesVf : Prop :=
  flagWriteOrder = .flagLast ∧
  (∀ (p : Params) (x y : Reg) (s : State),
    let a := s.getV x
    let b := s.getV y
    execWith p (.addReg x y) s =
      .next (writeFlagged p.flagWriteOrder x (a + b) (decide (256 ≤ a.toNat + b.toNat)) s) ∧
    execWith p (.sub x y) s = .next (writeFlagged p.flagWriteOrder x (a - b) (decide (b.toNat ≤ a.toNat)) s) ∧
    execWith p (.subn x y) s = .next (writeFlagged p.flagWriteOrder x (b - a) (decide (a.toNat ≤ b.toNat)) s) ∧
    execWith p (.shr x) s = .next (writeFlagged p.flagWriteOrder x (a >>> 1) (a.getLsbD 0) s) ∧
    execWith p (.shl x) s = .next (writeFlagged p.flagWriteOrder x (a <<< 1) (a.getLsbD 7) s)) ∧
  ∀ (x r : Reg) (b : Byte) (f : Bool) (s : State),
    (writeFlagged .flagLast x b f s).getV 15 = (if f then 1 else 0) ∧
    (x ≠ 15 → (writeFlagged .flagLast x b f s).getV x = b) ∧
    (writeFlagged .resultLast x b f s).getV x = b ∧
    (x ≠ 15 → (writeFlagged .resultLast x b f s).getV 15 = (if f then 1 else 0)) ∧
    (r ≠ x → r ≠ 15 → (writeFlagged .flagLast x b f s).getV r = s.getV r ∧
      (writeFlagged .resultLast x b f s).getV r = s.getV r)

/-- `RND Vx, kk` takes one byte of the random input, an argument of the machine or the model's free value
(log entry 5), and masks it; no flag (R144, R229, decision D12 of the spec). -/
def Obligations.RndMasksOneDraw : Prop :=
  ∀ (x : Reg) (kk : Byte) (s : State), ∃ t, exec (.rnd x kk) s = .next t ∧
    t.getV x = (Config.rnd s.draws &&& kk) ∧ (kk = 0 → t.getV x = 0) ∧ t.draws = s.draws + 1 ∧
    Frame { regs := [x], draws := true } s t ∧ t.pc = s.pc ∧
    ∀ p : Params, ∃ u, execWith p (.rnd x kk) s = .next u ∧ u.getV x = (p.rnd s.draws &&& kk) ∧
      { u with v := t.v } = t ∧ ∀ r, r ≠ x → u.getV r = s.getV r

/-! ## The display (42_display.md R160 to R163) -/

/-- `CLS` (R160). -/
def Obligations.ClsClearsEveryCell : Prop :=
  ∀ s : State, ∃ t, exec .cls s = .next t ∧ (∀ x y, t.pixel x y = false) ∧
    Frame { display := true } s t ∧ t.pc = s.pc

/-- `DRW Vx, Vy, n` in range (R161, R162): a cell is toggled exactly when the sprite at `(Vx, Vy)` covers
it with a set bit, and `VF` is 1 exactly when a covered cell was lit. The coordinates are read before
`VF` is written (decision D7 of the spec), column `c` is bit `7 - c` (decision D4). -/
def Obligations.DrwTogglesTheCoveredCells : Prop :=
  ∀ (x y : Reg) (n : Fin 16) (s : State), n.val = 0 ∨ s.i.toNat + n.val ≤ 4096 →
    let covers := Covers s.mem s.i.toNat n.val (s.getV x).toNat (s.getV y).toNat
    ∃ t, exec (.drw x y n) s = .next t ∧
      (∀ px py, covers px py → t.pixel px py = !s.pixel px py) ∧
      (∀ px py, ¬ covers px py → t.pixel px py = s.pixel px py) ∧
      ((∃ px py, covers px py ∧ s.pixel px py = true) → t.getV 15 = 1) ∧
      ((¬ ∃ px py, covers px py ∧ s.pixel px py = true) → t.getV 15 = 0) ∧
      Frame { regs := [15], display := true } s t ∧ t.pc = s.pc

/-- `DRW Vx, Vy, n` out of range faults with the lowest out-of-range row address, and the display and
`VF` are unchanged (R161). -/
def Obligations.DrwOutOfRangeFaults : Prop :=
  ∀ (x y : Reg) (n : Fin 16) (s : State), n.val ≠ 0 → 4096 < s.i.toNat + n.val →
    exec (.drw x y n) s = .fault (.invalidMemoryAccess (max s.i.toNat 4096)) ∧
    (FetchesOp s (.drw x y n) →
      (stepPort s).1 = .fault (.invalidMemoryAccess (max s.i.toNat 4096)) ∧
      (stepPort s).2.display = s.display ∧ (stepPort s).2.getV 15 = s.getV 15)

/-- Erase by redraw (R163): a second draw with `I`, the sprite bytes and the coordinates unchanged
restores the display, and its flag is 1 exactly when the sprite covers a cell that was unlit before the
first draw. On every display where the first draw meets no lit cell and so leaves `VF` 0, a clear one
among them, the second sets `VF` to 1 exactly when the sprite has a set bit. R163's inference that this
holds on every display contradicts R161 (log entry 16) and is not stated. -/
def Obligations.RedrawErasesTheSprite : Prop :=
  ∀ (x y : Reg) (n : Fin 16) (s t u : State), exec (.drw x y n) s = .next t →
    u.display = t.display → u.i = s.i → u.mem = s.mem → u.getV x = s.getV x → u.getV y = s.getV y →
    let covers := Covers s.mem s.i.toNat n.val (s.getV x).toNat (s.getV y).toNat
    let setBit := ∃ r c, r < n.val ∧ c < 8 ∧ (s.mem.read (s.i.toNat + r)).getLsbD (7 - c) = true
    ∃ v, exec (.drw x y n) u = .next v ∧ (∀ px py, v.pixel px py = s.pixel px py) ∧
      ((∃ px py, covers px py ∧ s.pixel px py = false) → v.getV 15 = 1) ∧
      ((¬ ∃ px py, covers px py ∧ s.pixel px py = false) → v.getV 15 = 0) ∧
      ((∀ px py, s.pixel px py = false) →
        t.getV 15 = 0 ∧ (setBit → v.getV 15 = 1) ∧ (¬ setBit → v.getV 15 = 0)) ∧
      (t.getV 15 = 0 → (setBit → v.getV 15 = 1) ∧ (¬ setBit → v.getV 15 = 0))

/-! ## Input latch and timers (43_input_timers.md R175 to R181) -/

/-- `SKP Vx` and `SKNP Vx` where `Vx` names a key (R175, R176): the skip on the key's state; nothing else
changes. -/
def Obligations.KeySkipsTestTheNamedKey : Prop :=
  ∀ (x : Reg) (k : Key) (s : State), k.val = (s.getV x).toNat →
    exec (.skp x) s = .next (if s.key k = true then { s with pc := s.pc + 2#16 } else s) ∧
    exec (.sknp x) s = .next (if s.key k = true then s else { s with pc := s.pc + 2#16 })

/-- `SKP Vx` and `SKNP Vx` where `Vx` is 16 or more fault with the value (R181, decision D11 of the
spec). -/
def Obligations.KeySkipsFaultAboveFifteen : Prop :=
  ∀ (x : Reg) (s : State), 16 ≤ (s.getV x).toNat →
    exec (.skp x) s = .fault (.undefinedKeyIndex (s.getV x)) ∧
    exec (.sknp x) s = .fault (.undefinedKeyIndex (s.getV x))

/-- `LD Vx, K` (R177): with no key pressed only `PC` changes, back by 2; else the least pressed key goes
to `V[x]` and nothing else changes. -/
def Obligations.KeyWaitCapturesTheLeastKey : Prop :=
  ∀ (x : Reg) (s : State),
    ((∀ k, s.key k = false) → exec (.ldVxK x) s = .next { s with pc := s.pc - 2#16 }) ∧
    (∀ k : Key, s.key k = true → (∀ j < k, s.key j = false) →
      ∃ t, exec (.ldVxK x) s = .next t ∧ (t.getV x).toNat = k.val ∧ Frame { regs := [x] } s t ∧
        t.pc = s.pc)

/-- A key wait with no key pressed makes no progress until the host sets a key: after any number of
steps, ticks and reads the state is as it was, the timers apart (70_reset_and_hazards.md R248). -/
def Obligations.KeyWaitHoldsUntilAKeyIsSet : Prop :=
  ∀ (x : Reg) (s : State) (trs : List Transaction), FetchesOp s (.ldVxK x) → (∀ k, s.key k = false) →
    (∀ tr ∈ trs, tr = .step ∨ tr = .tick ∨ tr = .readDisplay ∨ tr = .readTimers) →
    ∃ dt st, afterAll trs s = { s with dt := dt, st := st }

/-- `LD Vx, DT`, `LD DT, Vx`, `LD ST, Vx` (R178, R179, R180). -/
def Obligations.TimerMovesCopyTheValue : Prop :=
  ∀ (x : Reg) (s : State),
    (∃ t, exec (.ldVxDt x) s = .next t ∧ t.getV x = s.dt ∧ Frame { regs := [x] } s t ∧ t.pc = s.pc) ∧
    (∃ t, exec (.ldDtVx x) s = .next t ∧ t.dt = s.getV x ∧ Frame { delay := true } s t ∧ t.pc = s.pc) ∧
    (∃ t, exec (.ldStVx x) s = .next t ∧ t.st = s.getV x ∧ Frame { sound := true } s t ∧ t.pc = s.pc)

/-! ## Address register and memory (44_index_memory.md R190 to R195; 20_memory.md R51 to R54) -/

/-- `LD I, nnn` (R190). -/
def Obligations.LdISetsIndex : Prop :=
  ∀ (nnn : Addr12) (s : State), ∃ t, exec (.ldI nnn) s = .next t ∧
    t.i.toNat = nnn.toNat ∧ Frame { index := true } s t ∧ t.pc = s.pc

/-- `ADD I, Vx`: 16-bit wrap, no flag, no fault (R191). -/
def Obligations.AddIWrapsAtSixteenBits : Prop :=
  ∀ (x : Reg) (s : State), ∃ t, exec (.addI x) s = .next t ∧
    t.i.toNat = (s.i.toNat + (s.getV x).toNat) % 65536 ∧ Frame { index := true } s t ∧ t.pc = s.pc

/-- `LD F, Vx` (R192): the glyph address of a digit; above 15 the font fault, with `I` unchanged. -/
def Obligations.LdFSetsGlyphAddressOrFaults : Prop :=
  ∀ (x : Reg) (s : State),
    ((s.getV x).toNat ≤ 15 → ∃ t, exec (.ldF x) s = .next t ∧
      t.i.toNat = 5 * (s.getV x).toNat ∧ Frame { index := true } s t ∧ t.pc = s.pc) ∧
    (15 < (s.getV x).toNat → exec (.ldF x) s = .fault (.fontIndexOutOfRange (s.getV x))) ∧
    (15 < (s.getV x).toNat → FetchesOp s (.ldF x) →
      (stepPort s).1 = .fault (.fontIndexOutOfRange (s.getV x)) ∧ (stepPort s).2.i = s.i)

/-- `LD B, Vx` (R193): the three decimal digits at `I`, `I + 1`, `I + 2`; out of range the fault with the
lowest out-of-range address, and memory unchanged. -/
def Obligations.LdBStoresDecimalDigits : Prop :=
  ∀ (x : Reg) (s : State),
    let v := (s.getV x).toNat
    (s.i.toNat + 2 < 4096 → ∃ t, exec (.ldB x) s = .next t ∧
      (t.mem.read s.i.toNat).toNat = v / 100 ∧ (t.mem.read (s.i.toNat + 1)).toNat = v / 10 % 10 ∧
      (t.mem.read (s.i.toNat + 2)).toNat = v % 10 ∧
      Frame { memBase := s.i.toNat, memLen := 3 } s t ∧ t.pc = s.pc) ∧
    (4096 ≤ s.i.toNat + 2 →
      exec (.ldB x) s = .fault (.invalidMemoryAccess (max s.i.toNat 4096)) ∧
      (FetchesOp s (.ldB x) →
        (stepPort s).1 = .fault (.invalidMemoryAccess (max s.i.toNat 4096)) ∧
        (stepPort s).2.mem = s.mem))

/-- `LD [I], Vx` (R194): `V[0]` to `V[x]` at `I` upward, `I` unchanged; out of range the fault, and memory
unchanged. -/
def Obligations.StoreWritesRegistersUpward : Prop :=
  ∀ (x : Reg) (s : State),
    (s.i.toNat + x.val < 4096 → ∃ t, exec (.store x) s = .next t ∧
      (∀ r : Reg, r ≤ x → t.mem.read (s.i.toNat + r.val) = s.getV r) ∧
      Frame { memBase := s.i.toNat, memLen := x.val + 1 } s t ∧ t.pc = s.pc) ∧
    (4096 ≤ s.i.toNat + x.val →
      exec (.store x) s = .fault (.invalidMemoryAccess (max s.i.toNat 4096)) ∧
      (FetchesOp s (.store x) →
        (stepPort s).1 = .fault (.invalidMemoryAccess (max s.i.toNat 4096)) ∧
        (stepPort s).2.mem = s.mem))

/-- `LD Vx, [I]` (R195): `V[0]` to `V[x]` from `I` upward, the other registers and `I` unchanged; out of
range the fault, and the registers unchanged. -/
def Obligations.LoadReadsRegistersUpward : Prop :=
  ∀ (x : Reg) (s : State),
    (s.i.toNat + x.val < 4096 → ∃ t, exec (.load x) s = .next t ∧
      (∀ r : Reg, t.getV r = if r ≤ x then s.mem.read (s.i.toNat + r.val) else s.getV r) ∧
      Frame { regs := (List.finRange 16).filter (fun r => r ≤ x) } s t ∧ t.pc = s.pc) ∧
    (4096 ≤ s.i.toNat + x.val →
      exec (.load x) s = .fault (.invalidMemoryAccess (max s.i.toNat 4096)) ∧
      (FetchesOp s (.load x) →
        (stepPort s).1 = .fault (.invalidMemoryAccess (max s.i.toNat 4096)) ∧
        (stepPort s).2.v = s.v))

/-- What `LD [I], Vx` stored, `LD Vx, [I]` brings back (R194, R195). -/
def Obligations.LoadRestoresWhatStoreSaved : Prop :=
  ∀ (x : Reg) (s t u : State), exec (.store x) s = .next t → u.i = t.i → u.mem = t.mem →
    ∃ v, exec (.load x) u = .next v ∧ (∀ r : Reg, r ≤ x → v.getV r = s.getV r)

/-- Stored bytes are fetched by the next step that comes to them, with no fence: self-modifying code
takes effect (20_memory.md R64, an inference of the spec). -/
def Obligations.StoredBytesAreFetched : Prop :=
  ∀ (x a b : Reg) (s t : State) (p : Word), exec (.store x) s = .next t →
    b ≤ x → b.val = a.val + 1 → p.toNat = s.i.toNat + a.val →
    ∃ w, fetch { t with pc := p } = .ok w ∧ w.toNat = (s.getV a).toNat * 256 + (s.getV b).toNat

/-- The memory primitives (20_memory.md R51, R52, R53): an address of 4096 or more faults and is never
reduced; a read in range answers the byte and a write in range changes that byte and nothing else. -/
def Obligations.MemoryPrimitivesCheckAndAccessOneByte : Prop :=
  ∀ (s : State) (a : Nat) (b : Byte),
    (4096 ≤ a → memRead s a = .error (.invalidMemoryAccess a) ∧
      memWrite s a b = .error (.invalidMemoryAccess a)) ∧
    (a < 4096 → memRead s a = .ok (s.mem.read a) ∧
      ∃ t, memWrite s a b = .ok t ∧ memRead t a = .ok b ∧
        (∀ c, c ≠ a → memRead t c = memRead s c) ∧ { t with mem := s.mem } = s)

/-- The check of a span finds the lowest out-of-range address in access order, and nothing when there is
none (20_memory.md R54, decision D28 of the spec). -/
def Obligations.SpanFaultCarriesLowestAddress : Prop :=
  ∀ base n : Nat,
    spanFault base n =
      (((List.range n).map (base + ·)).find? (fun a => decide (4096 ≤ a))).map .invalidMemoryAccess

/-! ## The host's ports (60_exceptions.md R225 to R228; 70_reset_and_hazards.md R241) -/

/-- `tick` (R225): both timers down by one, saturating at zero; nothing else. -/
def Obligations.TickCountsBothTimersDown : Prop :=
  ∀ s : State, ∃ t, transact .tick s = (.ok, t) ∧
    t.dt.toNat = s.dt.toNat - 1 ∧ t.st.toNat = s.st.toNat - 1 ∧
    Frame { delay := true, sound := true } s t ∧ t.pc = s.pc

/-- `set_key(k, p)` (R226): that key and nothing else. -/
def Obligations.SetKeyWritesOneKey : Prop :=
  ∀ (k : Key) (p : Bool) (s : State), ∃ t, transact (.setKey k p) s = (.ok, t) ∧
    (∀ j, t.key j = if j = k then p else s.key j) ∧ { t with keys := s.keys } = s

/-- `read_display` answers the 2048 cells row by row, and `read_timers` the two timers; neither changes
anything (R227, R228). -/
def Obligations.ReadPortsAnswerWithoutEffect : Prop :=
  ∀ s : State,
    (∃ cells, transact .readDisplay s = (.display cells, s) ∧ cells.length = 2048 ∧
      ∀ (x : Fin 64) (y : Fin 32), cells[y.val * 64 + x.val]? = some (s.pixel x y)) ∧
    transact .readTimers s = (.timers s.dt s.st, s)

/-- `load(image)` (R241): an image of at most `MAX_IMAGE` bytes resets the machine and lies at
`PROGRAM_START`; a longer one changes nothing (decision D19 of the spec). First under any parameters, then
under the defaults (log entry 1); the model's own draw counter goes on (log entry 5). -/
def Obligations.LoadResetsAndPlacesTheImage : Prop :=
  (∀ p : Params, p.wf → ∀ (image : List Byte) (s : State),
    (image.length ≤ p.maxImage → ∃ t, transactWith p (.load image) s = (.ok, t) ∧
      { t with mem := (State.resetWith p).mem, draws := (State.resetWith p).draws } = State.resetWith p ∧
      t.draws = s.draws ∧
      (∀ k (h : k < image.length), t.mem.read (p.programStart + k) = image[k]) ∧
      (∀ a, a < p.programStart ∨ p.programStart + image.length ≤ a →
        t.mem.read a = (State.resetWith p).mem.read a)) ∧
    (p.maxImage < image.length → transactWith p (.load image) s = (.loadFault .imageTooLarge, s))) ∧
  maxImage = 4096 - programStart ∧
  ∀ (image : List Byte) (s : State),
    (image.length ≤ maxImage → ∃ t, transact (.load image) s = (.ok, t) ∧
      { t with mem := State.reset.mem, draws := State.reset.draws } = State.reset ∧
      t.draws = s.draws ∧
      (∀ k (h : k < image.length), t.mem.read (programStart + k) = image[k]) ∧
      (∀ a, a < programStart ∨ programStart + image.length ≤ a →
        t.mem.read a = State.reset.mem.read a)) ∧
    (maxImage < image.length → transact (.load image) s = (.loadFault .imageTooLarge, s))

/-! ## The parameters (00_scope.md R7) -/

/-- Where a parameter reaches. Two machines that agree on the parameter an operation reads execute it
alike: `SYS_BEHAVIOUR` reaches `SYS` alone, `FLAG_WRITE_ORDER` the five flagged operations and those only
with `x = 15` (41_alu.md R133), `rnd` `RND` alone, `FONT_BASE` `LD F` alone, and no other operation depends
on any parameter. A step runs the fetched operation under the parameters, and `LD F` points `I` at the
glyph from `FONT_BASE` on (44_index_memory.md R192). -/
def Obligations.ParametersReachOnlyTheirOperations : Prop :=
  (∀ (p q : Params) (i : Instr) (s : State),
    (match i with
      | .sys _ => p.sysBehaviour = q.sysBehaviour
      | .addReg x _ | .sub x _ | .subn x _ | .shr x | .shl x => x = 15 → p.flagWriteOrder = q.flagWriteOrder
      | .rnd _ _ => p.rnd s.draws = q.rnd s.draws
      | .ldF _ => p.fontBase = q.fontBase
      | .cls | .ret | .jp _ | .call _ | .jpV0 _ | .seImm _ _ | .sneImm _ _ | .seReg _ _ | .sneReg _ _
      | .ldImm _ _ | .addImm _ _ | .ldReg _ _ | .orReg _ _ | .andReg _ _ | .xorReg _ _ | .drw _ _ _
      | .skp _ | .sknp _ | .ldVxDt _ | .ldVxK _ | .ldDtVx _ | .ldStVx _ | .ldI _ | .addI _ | .ldB _
      | .store _ | .load _ => True) →
    execWith p i s = execWith q i s) ∧
  (∀ (p : Params) (i : Instr) (s : State), FetchesOp s i →
    stepWith p s = execWith p i { s with pc := s.pc + 2#16 }) ∧
  (∀ (p : Params) (x : Reg) (s : State), p.wf → (s.getV x).toNat ≤ 15 →
    ∃ t, execWith p (.ldF x) s = .next t ∧ t.i.toNat = p.fontBase + 5 * (s.getV x).toNat ∧
      Frame { index := true } s t ∧ t.pc = s.pc)
end

