-- ==== Sys2Proof/Laws/Decode.lean ====
section
/-!
SUPPORT. What each field of a packed word is (spec/30_encoding.md R71, R72): the lemmas the round trip
rests on, one per field per format, and the two bytes of a word.
-/

namespace Sys2Proof

theorem wordOfBytes_high_low (w : Word) : wordOfBytes (highByte w) (lowByte w) = w := by
  have := w.isLt
  apply BitVec.eq_of_toNat_eq
  simp only [wordOfBytes, highByte, lowByte, bits, BitVec.toNat_ofNat]
  omega

/-! ### Format A -/

theorem toNat_packA (op : Nat) (nnn : Addr12) (h : op < 16) : (packA op nnn).toNat = op * 4096 + nnn.toNat := by
  have := nnn.isLt
  simp only [packA, BitVec.toNat_ofNat]
  omega

theorem fieldOp_packA (op : Nat) (nnn : Addr12) (h : op < 16) : (fieldOp (packA op nnn)).val = op := by
  have := nnn.isLt
  simp only [fieldOp, bits, toNat_packA op nnn h, Fin.val_ofNat]
  omega

theorem fieldNnn_packA (op : Nat) (nnn : Addr12) (h : op < 16) : fieldNnn (packA op nnn) = nnn := by
  have := nnn.isLt
  apply BitVec.eq_of_toNat_eq
  simp only [fieldNnn, bits, toNat_packA op nnn h, BitVec.toNat_ofNat]
  omega

/-! ### Formats XK and X -/

theorem toNat_packXK (op : Nat) (x : Reg) (kk : Byte) (h : op < 16) :
    (packXK op x kk).toNat = op * 4096 + x.val * 256 + kk.toNat := by
  have := kk.isLt
  simp only [packXK, BitVec.toNat_ofNat]
  omega

theorem fieldOp_packXK (op : Nat) (x : Reg) (kk : Byte) (h : op < 16) :
    (fieldOp (packXK op x kk)).val = op := by
  have := kk.isLt
  simp only [fieldOp, bits, toNat_packXK op x kk h, Fin.val_ofNat]
  omega

theorem fieldX_packXK (op : Nat) (x : Reg) (kk : Byte) (h : op < 16) : fieldX (packXK op x kk) = x := by
  have := kk.isLt
  apply Fin.ext
  simp only [fieldX, bits, toNat_packXK op x kk h, Fin.val_ofNat]
  omega

theorem fieldKk_packXK (op : Nat) (x : Reg) (kk : Byte) (h : op < 16) : fieldKk (packXK op x kk) = kk := by
  have := kk.isLt
  apply BitVec.eq_of_toNat_eq
  simp only [fieldKk, bits, toNat_packXK op x kk h, BitVec.toNat_ofNat]
  omega

/-! ### Formats XY and XYN -/

theorem toNat_packXYN (op : Nat) (x y : Reg) (n : Fin 16) (h : op < 16) :
    (packXYN op x y n).toNat = op * 4096 + x.val * 256 + y.val * 16 + n.val := by
  simp only [packXYN, BitVec.toNat_ofNat]
  omega

theorem fieldOp_packXYN (op : Nat) (x y : Reg) (n : Fin 16) (h : op < 16) :
    (fieldOp (packXYN op x y n)).val = op := by
  simp only [fieldOp, bits, toNat_packXYN op x y n h, Fin.val_ofNat]
  omega

theorem fieldX_packXYN (op : Nat) (x y : Reg) (n : Fin 16) (h : op < 16) : fieldX (packXYN op x y n) = x := by
  apply Fin.ext
  simp only [fieldX, bits, toNat_packXYN op x y n h, Fin.val_ofNat]
  omega

theorem fieldY_packXYN (op : Nat) (x y : Reg) (n : Fin 16) (h : op < 16) : fieldY (packXYN op x y n) = y := by
  apply Fin.ext
  simp only [fieldY, bits, toNat_packXYN op x y n h, Fin.val_ofNat]
  omega

theorem fieldN_packXYN (op : Nat) (x y : Reg) (n : Fin 16) (h : op < 16) : fieldN (packXYN op x y n) = n := by
  apply Fin.ext
  simp only [fieldN, bits, toNat_packXYN op x y n h, Fin.val_ofNat]
  omega

/-! ### Masks of the opcode table (R76) -/

/-- Bitwise and acts on a high block and a low block of `k` bits apart. -/
theorem and_block (k a b c d : Nat) (hb : b < 2 ^ k) (hd : d < 2 ^ k) :
    (2 ^ k * a + b) &&& (2 ^ k * c + d) = 2 ^ k * (a &&& c) + (b &&& d) := by
  apply Nat.eq_of_testBit_eq
  intro j
  rw [Nat.testBit_and, Nat.testBit_two_pow_mul_add _ hb, Nat.testBit_two_pow_mul_add _ hd,
    Nat.testBit_two_pow_mul_add _ (Nat.lt_of_le_of_lt Nat.and_le_left hb)]
  split <;> simp

/-- Bitwise and acts nibble by nibble. -/
theorem and_nibbles (a b c d p q r s : Nat) (hb : b < 16) (hc : c < 16) (hd : d < 16)
    (hq : q < 16) (hr : r < 16) (hs : s < 16) :
    (a * 4096 + b * 256 + c * 16 + d) &&& (p * 4096 + q * 256 + r * 16 + s) =
      (a &&& p) * 4096 + (b &&& q) * 256 + (c &&& r) * 16 + (d &&& s) := by
  have h := and_block 4 (2 ^ 4 * (2 ^ 4 * a + b) + c) d (2 ^ 4 * (2 ^ 4 * p + q) + r) s hd hs
  rw [and_block 4 _ _ _ _ hc hr, and_block 4 _ _ _ _ hb hq] at h
  convert h using 1 <;> [congr 1 <;> ring; ring]

/-- A word is its four nibbles. -/
theorem toNat_eq_nibbles (w : Word) :
    w.toNat = (fieldOp w).val * 4096 + (fieldX w).val * 256 + (fieldY w).val * 16 + (fieldN w).val := by
  have := w.isLt
  simp only [fieldOp, fieldX, fieldY, fieldN, bits, Fin.val_ofNat]
  omega

/-- The low byte is the two low nibbles: `kk = y * 16 + n` (R71). -/
theorem toNat_fieldKk (w : Word) : (fieldKk w).toNat = (fieldY w).val * 16 + (fieldN w).val := by
  simp only [fieldKk, fieldY, fieldN, bits, Fin.val_ofNat, BitVec.toNat_ofNat]
  omega

theorem and_15 (n : Fin 16) : n.val &&& 15 = n.val := by
  have := Nat.and_two_pow_sub_one_eq_mod n.val 4
  have := n.isLt
  simp_all

/-- A word under a mask of four nibbles. -/
theorem toNat_and_mask (w : Word) (p q r s : Fin 16) :
    (w &&& BitVec.ofNat 16 (p.val * 4096 + q.val * 256 + r.val * 16 + s.val)).toNat =
      ((fieldOp w).val &&& p.val) * 4096 + ((fieldX w).val &&& q.val) * 256 +
        ((fieldY w).val &&& r.val) * 16 + ((fieldN w).val &&& s.val) := by
  rw [BitVec.toNat_and, BitVec.toNat_ofNat, Nat.mod_eq_of_lt (by omega), toNat_eq_nibbles,
    and_nibbles _ _ _ _ _ _ _ _ (by omega) (by omega) (by omega) (by omega) (by omega) (by omega)]

theorem toNat_and_F000 (w : Word) : (w &&& 0xF000#16).toNat = (fieldOp w).val * 4096 := by
  simpa [and_15] using toNat_and_mask w 15 0 0 0

theorem toNat_and_F00F (w : Word) : (w &&& 0xF00F#16).toNat = (fieldOp w).val * 4096 + (fieldN w).val := by
  simpa [and_15] using toNat_and_mask w 15 0 0 15

theorem toNat_and_F0FF (w : Word) :
    (w &&& 0xF0FF#16).toNat = (fieldOp w).val * 4096 + (fieldKk w).toNat := by
  rw [toNat_fieldKk, ← Nat.add_assoc]
  simpa [and_15] using toNat_and_mask w 15 0 15 15

end Sys2Proof
end

