-- ==== Sys2Proof/Laws/Memory.lean ====
section
/-!
SUPPORT. The laws of the memory: a byte reads back what was written to it, every other byte is
unchanged (whatever list the memory is), and every operation keeps the canonical form.
-/

namespace Sys2Proof.Machine

/-! ### Read after write -/

theorem Memory.read_insert (m : Memory) (a k : Nat) (b : Byte) (h : ∀ c ∈ m, c.1 ≠ a) :
    (m.insert a b).read k = if k = a then b else m.read k := by
  induction m with
  | nil => simp [Memory.insert, Memory.read, eq_comm]
  | cons c m ih =>
    obtain ⟨d, e⟩ := c
    have hd : d ≠ a := h (d, e) List.mem_cons_self
    have ih := ih fun c hc => h c (List.mem_cons_of_mem _ hc)
    unfold Memory.insert
    split
    · simp only [Memory.read, eq_comm]
    · simp only [Memory.read, ih]
      split <;> split <;> simp_all

theorem Memory.read_filter_ne (m : Memory) (a k : Nat) (h : k ≠ a) :
    Memory.read (m.filter (fun c => c.1 ≠ a)) k = m.read k := by
  induction m with
  | nil => rfl
  | cons c m ih =>
    obtain ⟨d, e⟩ := c
    by_cases hd : d = a
    · subst hd
      simp only [ne_eq, not_true_eq_false, decide_false, Bool.false_eq_true, not_false_eq_true,
        List.filter_cons_of_neg, Memory.read, h.symm, if_false]
      exact ih
    · simp only [ne_eq, hd, not_false_eq_true, decide_true, List.filter_cons_of_pos, Memory.read]
      split
      · rfl
      · exact ih

theorem Memory.read_of_unlisted (m : Memory) (a : Nat) (h : ∀ c ∈ m, c.1 ≠ a) :
    m.read a = Memory.initial a := by
  induction m with
  | nil => rfl
  | cons c m ih =>
    have hc := h c List.mem_cons_self
    simp only [Memory.read, hc, if_false]
    exact ih fun c hc => h c (List.mem_cons_of_mem _ hc)

theorem Memory.filter_ne_unlisted (m : Memory) (a : Nat) :
    ∀ c ∈ m.filter (fun c => c.1 ≠ a), c.1 ≠ a := by
  intro c hc
  simpa using (List.mem_filter.mp hc).2

/-- The one law of a byte write: the byte written is read back, every other byte is unchanged. -/
theorem Memory.read_write (m : Memory) (a k : Nat) (b : Byte) :
    (m.write a b).read k = if k = a then b else m.read k := by
  have hu := Memory.filter_ne_unlisted m a
  unfold Memory.write
  split
  · rename_i hb
    by_cases hk : k = a
    · subst hk
      rw [if_pos rfl, hb]
      exact Memory.read_of_unlisted _ _ hu
    · rw [if_neg hk]
      exact Memory.read_filter_ne m a k hk
  · rw [Memory.read_insert _ _ _ _ hu]
    split
    · rfl
    · exact Memory.read_filter_ne m a k ‹_›

/-- A span write leaves every byte outside the span. -/
theorem Memory.read_writeSpan_outside (bs : List Byte) (m : Memory) (base k : Nat)
    (h : k < base ∨ base + bs.length ≤ k) : (m.writeSpan base bs).read k = m.read k := by
  induction bs generalizing m base with
  | nil => rfl
  | cons b bs ih =>
    simp only [List.length_cons] at h
    rw [Memory.writeSpan, ih _ _ (by omega), Memory.read_write, if_neg (by omega)]

/-- A span write puts byte `j` of the list at `base + j`. -/
theorem Memory.read_writeSpan_inside (bs : List Byte) (m : Memory) (base j : Nat)
    (h : j < bs.length) : (m.writeSpan base bs).read (base + j) = bs[j] := by
  induction bs generalizing m base j with
  | nil => simp at h
  | cons b bs ih =>
    rw [Memory.writeSpan]
    cases j with
    | zero =>
      rw [Memory.read_writeSpan_outside _ _ _ _ (by omega), Memory.read_write]
      simp
    | succ j =>
      have := ih (m.write base b) (base + 1) j (by simpa using h)
      rw [show base + (j + 1) = base + 1 + j by omega, this]
      rfl

@[simp] theorem Memory.length_readSpan (m : Memory) (base n : Nat) : (m.readSpan base n).length = n := by
  simp [Memory.readSpan]

@[simp] theorem Memory.getElem_readSpan (m : Memory) (base n r : Nat) (h : r < (m.readSpan base n).length) :
    (m.readSpan base n)[r] = m.read (base + r) := by
  simp [Memory.readSpan]

/-! ### The canonical form -/

theorem Memory.mem_insert {m : Memory} {a : Nat} {b : Byte} {c : Host.Cell} (h : c ∈ m.insert a b) :
    c = (a, b) ∨ c ∈ m := by
  induction m with
  | nil => simpa [Memory.insert] using h
  | cons d m ih =>
    unfold Memory.insert at h
    split at h
    · simpa using h
    · rcases List.mem_cons.mp h with rfl | h
      · exact .inr List.mem_cons_self
      · exact (ih h).imp_right (List.mem_cons_of_mem _)

theorem Memory.pairwise_insert {m : Memory} {a : Nat} {b : Byte}
    (hm : m.Pairwise (fun c d => c.1 < d.1)) (ha : ∀ c ∈ m, c.1 ≠ a) :
    (m.insert a b).Pairwise (fun c d => c.1 < d.1) := by
  induction m with
  | nil => simp [Memory.insert]
  | cons d m ih =>
    have hd := ha d List.mem_cons_self
    obtain ⟨hlt, hm'⟩ := List.pairwise_cons.mp hm
    unfold Memory.insert
    split
    · rename_i had
      refine List.pairwise_cons.mpr ⟨fun c hc => ?_, hm⟩
      rcases List.mem_cons.mp hc with rfl | hc
      · exact had
      · exact lt_trans had (hlt c hc)
    · refine List.pairwise_cons.mpr ⟨fun c hc => ?_, ih hm' fun c hc => ha c (List.mem_cons_of_mem _ hc)⟩
      rcases Memory.mem_insert hc with rfl | hc
      · show d.1 < a
        have : ¬ a < d.1 := ‹_›
        omega
      · exact hlt c hc

/-- Writing a byte in the address space keeps the canonical form. -/
theorem Memory.wf_write {m : Memory} {a : Nat} (b : Byte) (h : m.wf) (ha : a < Config.memSize) :
    (m.write a b).wf := by
  have hp : (m.filter (fun c => c.1 ≠ a)).Pairwise (fun c d => c.1 < d.1) := h.1.filter _
  have hin : ∀ c ∈ m.filter (fun c => c.1 ≠ a), c ∈ m := fun c hc => (List.mem_filter.mp hc).1
  unfold Memory.write
  split
  · exact ⟨hp, fun c hc => h.2 c (hin c hc)⟩
  · refine ⟨Memory.pairwise_insert hp (Memory.filter_ne_unlisted m a), fun c hc => ?_⟩
    rcases Memory.mem_insert hc with rfl | hc
    · exact ⟨ha, ‹_›⟩
    · exact h.2 c (hin c hc)

/-- Writing a span in the address space keeps the canonical form. -/
theorem Memory.wf_writeSpan (bs : List Byte) {m : Memory} {base : Nat} (h : m.wf)
    (hb : base + bs.length ≤ Config.memSize) : (m.writeSpan base bs).wf := by
  induction bs generalizing m base with
  | nil => exact h
  | cons b bs ih =>
    simp only [List.length_cons] at hb
    exact ih (Memory.wf_write b h (by omega)) (by omega)

/-- The memory of the reset state is in canonical form. -/
theorem Memory.wf_reset : State.reset.mem.wf := by decide

end Sys2Proof.Machine
end

