-- ==== Sys2Proof/Laws/Ops.lean ====
section
/-!
SUPPORT. One lemma for each shared operation that says once everything it can do; proofs cite these
instead of unfolding the operation.
-/

namespace Sys2Proof.Machine

/-! ### The memory gate -/

theorem addressOk_iff (a : Nat) : addressOk a = true ↔ a < Config.memSize := by
  simp [addressOk]

/-- A read answers the byte in range and the fault out of range. -/
theorem memRead_eq (s : State) (a : Nat) :
    memRead s a = if a < Config.memSize then .ok (s.mem.read a) else .error (.invalidMemoryAccess a) := by
  simp [memRead, addressOk]

/-- A write changes one byte in range and answers the fault out of range. -/
theorem memWrite_eq (s : State) (a : Nat) (b : Byte) :
    memWrite s a b =
      if a < Config.memSize then .ok (s.setMem (s.mem.write a b))
      else .error (.invalidMemoryAccess a) := by
  simp [memWrite, addressOk]

/-- A span in range, or empty, has no fault. -/
theorem spanFault_none {base n : Nat} (h : base + n ≤ Config.memSize ∨ n = 0) : spanFault base n = none := by
  unfold spanFault
  rcases h with h | h <;> simp [h]

/-- A span out of range has the fault of its lowest rejected address. -/
theorem spanFault_some {base n : Nat} (h : Config.memSize < base + n) (hn : n ≠ 0) :
    spanFault base n = some (.invalidMemoryAccess (max base Config.memSize)) := by
  unfold spanFault
  rw [if_neg]
  simp [hn, Nat.not_le.mpr h]

/-- The two ways a guarded instruction ends. -/
theorem guardSpan_cases (base n : Nat) (effect : Result) :
    ((base + n ≤ Config.memSize ∨ n = 0) ∧ guardSpan base n effect = effect) ∨
    (Config.memSize < base + n ∧ n ≠ 0 ∧
      guardSpan base n effect = .fault (.invalidMemoryAccess (max base Config.memSize))) := by
  by_cases h : base + n ≤ Config.memSize ∨ n = 0
  · exact .inl ⟨h, by rw [guardSpan, spanFault_none h]⟩
  · push Not at h
    exact .inr ⟨h.1, h.2, by rw [guardSpan, spanFault_some h.1 h.2]; rfl⟩

theorem guardSpan_ok {base n : Nat} (h : base + n ≤ Config.memSize ∨ n = 0) (effect : Result) :
    guardSpan base n effect = effect := by
  rw [guardSpan, spanFault_none h]

theorem guardSpan_fault {base n : Nat} (h : Config.memSize < base + n) (hn : n ≠ 0) (effect : Result) :
    guardSpan base n effect = .fault (.invalidMemoryAccess (max base Config.memSize)) := by
  rw [guardSpan, spanFault_some h hn]; rfl

/-! ### Fetch -/

/-- The three ways a fetch ends. -/
theorem fetch_eq (s : State) :
    fetch s =
      if s.pc.toNat < Config.memSize then
        if s.pc.toNat + 1 < Config.memSize then .ok (wordAtPc s)
        else .error (.invalidMemoryAccess (s.pc.toNat + 1))
      else .error (.invalidMemoryAccess s.pc.toNat) := by
  unfold fetch wordAtPc
  rw [memRead_eq, memRead_eq]
  by_cases h : s.pc.toNat < Config.memSize
  · by_cases h' : s.pc.toNat + 1 < Config.memSize <;> simp only [h, h', if_true, if_false]
  · simp only [h, if_false]

/-- A fetch succeeds exactly where both bytes are in range. -/
theorem fetch_ok_iff (s : State) (w : Word) :
    fetch s = .ok w ↔ s.pc.toNat + 1 < Config.memSize ∧ w = wordAtPc s := by
  rw [fetch_eq]
  split
  · split
    · simp [*, eq_comm]
    · simp [*]
  · simp only [reduceCtorEq, false_iff, not_and]
    omega

/-- A fetch faults exactly where a byte is out of range, with the lower such address. -/
theorem fetch_error_iff (s : State) (f : Fault) :
    fetch s = .error f ↔
      Config.memSize ≤ s.pc.toNat + 1 ∧ f = .invalidMemoryAccess (max s.pc.toNat Config.memSize) := by
  rw [fetch_eq]
  split
  · split
    · simp only [reduceCtorEq, false_iff, not_and]; omega
    · have hm : max s.pc.toNat Config.memSize = s.pc.toNat + 1 := by omega
      rw [hm]; simp only [Except.error.injEq, eq_comm]
      exact ⟨fun h => ⟨by omega, h⟩, fun h => h.2⟩
  · have hm : max s.pc.toNat Config.memSize = s.pc.toNat := by omega
    rw [hm]; simp only [Except.error.injEq, eq_comm]
    exact ⟨fun h => ⟨by omega, h⟩, fun h => h.2⟩

/-- The pre-advance of a fetched instruction does not wrap (40_control_flow.md R100). -/
theorem advance_pc_toNat {s : State} (h : s.pc.toNat + 1 < Config.memSize) :
    s.advance.pc.toNat = s.pc.toNat + 2 := by
  have : s.pc.toNat < 65536 := s.pc.isLt
  simp only [State.advance_pc, BitVec.toNat_add]
  simp only [Config.memSize] at h
  show (s.pc.toNat + 2) % 65536 = _
  omega

/-- The rewind undoes the pre-advance. -/
theorem advance_rewind (s : State) : s.advance.rewind = s := by
  simp [State.advance, State.rewind, State.setPc]

/-! ### The call stack -/

/-- A push onto a stack that is not full. -/
theorem push_ok {s : State} (h : s.sp.val < 16) (w : Word) :
    push s w = .ok { s with stack := s.stack.set s.sp.val w, sp := ⟨s.sp.val + 1, by omega⟩ } := by
  simp [push, h]

/-- A push onto a full stack. -/
theorem push_full {s : State} (h : s.sp = 16) (w : Word) : push s w = .error .stackOverflow := by
  simp [push, h]

/-- A pop from a stack that is not empty. -/
theorem pop_ok {s : State} (h : 0 < s.sp.val) :
    pop s = .ok (s.stack[s.sp.val - 1], { s with sp := ⟨s.sp.val - 1, by omega⟩ }) := by
  simp only [pop, h, dif_pos]

/-- A pop from an empty stack. -/
theorem pop_empty {s : State} (h : s.sp = 0) : pop s = .error .stackUnderflow := by
  simp [pop, h]

/-- The two ways a push ends. -/
theorem push_cases (s : State) (w : Word) :
    (∃ h : s.sp.val < 16, push s w =
      .ok { s with stack := s.stack.set s.sp.val w, sp := ⟨s.sp.val + 1, by omega⟩ }) ∨
    (s.sp.val = 16 ∧ push s w = .error .stackOverflow) := by
  by_cases h : s.sp.val < 16
  · exact .inl ⟨h, push_ok h w⟩
  · exact .inr ⟨by omega, by simp only [push, h, dif_neg, not_false_eq_true]⟩

/-- The two ways a pop ends. -/
theorem pop_cases (s : State) :
    (∃ _ : 0 < s.sp.val, pop s =
      .ok (s.stack[s.sp.val - 1], { s with sp := ⟨s.sp.val - 1, by omega⟩ })) ∨
    (s.sp.val = 0 ∧ pop s = .error .stackUnderflow) := by
  by_cases h : 0 < s.sp.val
  · exact .inl ⟨h, pop_ok h⟩
  · exact .inr ⟨by omega, by simp only [pop, h, dif_neg, not_false_eq_true]⟩

/-! ### Flagged writes -/

/-- A register after a flagged write under either order (41_alu.md R133). -/
theorem getV_writeFlagged (o : FlagWriteOrder) (x r : Reg) (b : Byte) (f : Bool) (s : State) :
    (writeFlagged o x b f s).getV r =
      if r = x ∧ (x ≠ flagReg ∨ o = .resultLast) then b
      else if r = flagReg then flagByte f
      else s.getV r := by
  cases o <;> simp only [writeFlagged, State.getV_setV] <;> by_cases h1 : r = flagReg <;>
    by_cases h2 : r = x <;> simp_all

@[simp] theorem writeFlagged_i (o x b f) (s : State) : (writeFlagged o x b f s).i = s.i := by cases o <;> rfl
@[simp] theorem writeFlagged_pc (o x b f) (s : State) : (writeFlagged o x b f s).pc = s.pc := by cases o <;> rfl
@[simp] theorem writeFlagged_sp (o x b f) (s : State) : (writeFlagged o x b f s).sp = s.sp := by cases o <;> rfl
@[simp] theorem writeFlagged_stack (o x b f) (s : State) :
    (writeFlagged o x b f s).stack = s.stack := by cases o <;> rfl
@[simp] theorem writeFlagged_dt (o x b f) (s : State) : (writeFlagged o x b f s).dt = s.dt := by cases o <;> rfl
@[simp] theorem writeFlagged_st (o x b f) (s : State) : (writeFlagged o x b f s).st = s.st := by cases o <;> rfl
@[simp] theorem writeFlagged_mem (o x b f) (s : State) :
    (writeFlagged o x b f s).mem = s.mem := by cases o <;> rfl
@[simp] theorem writeFlagged_display (o x b f) (s : State) :
    (writeFlagged o x b f s).display = s.display := by cases o <;> rfl
@[simp] theorem writeFlagged_keys (o x b f) (s : State) :
    (writeFlagged o x b f s).keys = s.keys := by cases o <;> rfl
@[simp] theorem writeFlagged_draws (o x b f) (s : State) :
    (writeFlagged o x b f s).draws = s.draws := by cases o <;> rfl

/-! ### Register spans, keys, digits -/

/-- A register after a bulk load (44_index_memory.md R195). -/
theorem getV_loadRegs (s : State) (base : Nat) (x r : Reg) :
    (loadRegs s base x).getV r = if r ≤ x then s.mem.read (base + r.val) else s.getV r := by
  simp [loadRegs, State.getV]

@[simp] theorem loadRegs_i (s : State) (base : Nat) (x : Reg) :
    (loadRegs s base x).i = s.i := rfl
@[simp] theorem loadRegs_pc (s : State) (base : Nat) (x : Reg) :
    (loadRegs s base x).pc = s.pc := rfl
@[simp] theorem loadRegs_sp (s : State) (base : Nat) (x : Reg) :
    (loadRegs s base x).sp = s.sp := rfl
@[simp] theorem loadRegs_stack (s : State) (base : Nat) (x : Reg) :
    (loadRegs s base x).stack = s.stack := rfl
@[simp] theorem loadRegs_dt (s : State) (base : Nat) (x : Reg) :
    (loadRegs s base x).dt = s.dt := rfl
@[simp] theorem loadRegs_st (s : State) (base : Nat) (x : Reg) :
    (loadRegs s base x).st = s.st := rfl
@[simp] theorem loadRegs_mem (s : State) (base : Nat) (x : Reg) :
    (loadRegs s base x).mem = s.mem := rfl
@[simp] theorem loadRegs_display (s : State) (base : Nat) (x : Reg) :
    (loadRegs s base x).display = s.display := rfl
@[simp] theorem loadRegs_keys (s : State) (base : Nat) (x : Reg) :
    (loadRegs s base x).keys = s.keys := rfl
@[simp] theorem loadRegs_draws (s : State) (base : Nat) (x : Reg) :
    (loadRegs s base x).draws = s.draws := rfl

@[simp] theorem length_regSpan (s : State) (x : Reg) : (regSpan s x).length = x.val + 1 := by
  simp [regSpan]

/-- Byte `j` of a register span is `V[j]` (R194). -/
theorem getElem_regSpan (s : State) (x r : Reg) (h : r.val < (regSpan s x).length) :
    (regSpan s x)[r.val] = s.getV r := by
  simp [regSpan, State.getV]

/-- The key a register value names is the one with that number (43_input_timers.md R181). -/
theorem keyIndex_eq_some {b : Byte} {k : Key} : keyIndex b = some k ↔ k.val = b.toNat := by
  unfold keyIndex
  split
  · simp [Fin.ext_iff, eq_comm]
  · simp only [reduceCtorEq, false_iff]; omega

theorem keyIndex_eq_none {b : Byte} : keyIndex b = none ↔ 16 ≤ b.toNat := by
  unfold keyIndex
  split
  · simp only [reduceCtorEq, false_iff]; omega
  · simp only [true_iff]; omega

/-- The key wait finds no key exactly when none is pressed (R177). -/
theorem leastPressed_eq_none {s : State} : leastPressed s = none ↔ ∀ k, s.key k = false := by
  simp [leastPressed]

/-- The key the wait finds is pressed, and no lower one is (R177). -/
theorem leastPressed_eq_some {s : State} {k : Key} (h : leastPressed s = some k) :
    s.key k = true ∧ ∀ j < k, s.key j = false := by
  unfold leastPressed at h
  obtain ⟨hk, as, bs, heq, hall⟩ := List.find?_eq_some_iff_append.mp h
  refine ⟨hk, fun j hj => ?_⟩
  have hs : (List.finRange 16).Pairwise (· < ·) := List.pairwise_lt_finRange 16
  rw [heq] at hs
  have hm : j ∈ as ++ k :: bs := heq ▸ List.mem_finRange j
  rcases List.mem_append.mp hm with hm | hm
  · simpa using hall j hm
  · rcases List.mem_cons.mp hm with rfl | hm
    · exact absurd hj (lt_irrefl _)
    · have := (List.pairwise_cons.mp (List.pairwise_append.mp hs).2.1).1 j hm
      exact absurd hj (lt_asymm this)

/-! ### The blitter -/

/-- A cell after one set sprite bit: toggled where the bit lands, unchanged elsewhere (42_display.md R161). -/
theorem get_toggleCell (px py : Nat) (acc : Display × Bool) (x : Fin 64) (y : Fin 32) :
    (toggleCell px py acc).1.get x y =
      if px % 64 = x.val ∧ py % 32 = y.val then !acc.1.get x y else acc.1.get x y := by
  have hx : x = Fin.ofNat 64 px ↔ px % 64 = x.val := by simp [Fin.ext_iff, eq_comm]
  have hy : y = Fin.ofNat 32 py ↔ py % 32 = y.val := by simp [Fin.ext_iff, eq_comm]
  simp only [toggleCell, Display.get_put, ← hx, ← hy]
  split
  · obtain ⟨rfl, rfl⟩ := ‹_ ∧ _›; rfl
  · rfl

/-- The collision flag after one set sprite bit. -/
theorem flag_toggleCell (px py : Nat) (acc : Display × Bool) :
    (toggleCell px py acc).2 = (acc.2 || acc.1.get (Fin.ofNat 64 px) (Fin.ofNat 32 py)) := rfl

/-! ### The state after a fault -/

/-- What a faulting step leaves (60_exceptions.md R212). -/
theorem afterFault_eq (s : State) :
    afterFault s = if s.pc.toNat + 1 < Config.memSize then s.advance else s := by
  unfold afterFault
  split
  · rename_i f h
    rw [if_neg (by have := ((fetch_error_iff s f).mp h).1; omega)]
  · rename_i w h
    rw [if_pos ((fetch_ok_iff s w).mp h).1]

end Sys2Proof.Machine
end

