-- ==== Sys2Proof/Laws/Step.lean ====
section
/-!
SUPPORT. What one step can do (spec/40_control_flow.md R100), said once: every fact about `step` reduces
by these to one about `exec` on the pre-advanced state.
-/

namespace Sys2Proof.Machine

/-- An operation is fetched exactly where both bytes are in range and the word there decodes to it. -/
theorem fetchesOp_iff (s : State) (i : Instr) :
    FetchesOp s i ↔ s.pc.toNat + 1 < Config.memSize ∧ decode (wordAtPc s) = .op i := by
  constructor
  · rintro ⟨w, hf, hd⟩
    obtain ⟨h, rfl⟩ := (fetch_ok_iff s w).mp hf
    exact ⟨h, hd⟩
  · rintro ⟨h, hd⟩
    exact ⟨wordAtPc s, (fetch_ok_iff s _).mpr ⟨h, rfl⟩, hd⟩

/-- The word at `PC` by its number (20_memory.md R55). -/
theorem toNat_wordAtPc (s : State) :
    (wordAtPc s).toNat =
      (s.mem.read s.pc.toNat).toNat * 256 + (s.mem.read (s.pc.toNat + 1)).toNat := by
  have h1 := (s.mem.read s.pc.toNat).isLt
  have h2 := (s.mem.read (s.pc.toNat + 1)).isLt
  simp only [wordAtPc, wordOfBytes, BitVec.toNat_ofNat]
  omega

/-! ### `Step()` over any `Execute(op)`, and so `step` and `stepWith` -/

theorem cycle_of_fetch_error (execute : Instr → State → Result) {s : State} {f : Fault}
    (h : fetch s = .error f) : cycle execute s = .fault f := by
  simp only [cycle, h, raise]

theorem cycle_of_fetchesOp (execute : Instr → State → Result) {s : State} {i : Instr} (h : FetchesOp s i) :
    cycle execute s = execute i s.advance := by
  obtain ⟨w, hf, hd⟩ := h
  simp only [cycle, hf, hd]

theorem cycle_of_invalid (execute : Instr → State → Result) {s : State} {w u : Word}
    (hf : fetch s = .ok w) (hd : decode w = .invalid u) : cycle execute s = .fault (.invalidOpcode u) := by
  simp only [cycle, hf, hd, execInvalid, raise]

theorem step_of_fetch_error {s : State} {f : Fault} (h : fetch s = .error f) : step s = .fault f :=
  cycle_of_fetch_error exec h

theorem step_of_fetchesOp {s : State} {i : Instr} (h : FetchesOp s i) : step s = exec i s.advance :=
  cycle_of_fetchesOp exec h

theorem step_of_invalid {s : State} {w u : Word} (hf : fetch s = .ok w) (hd : decode w = .invalid u) :
    step s = .fault (.invalidOpcode u) :=
  cycle_of_invalid exec hf hd

/-- The three ways `Step()` runs over any `Execute(op)`: a fetch fault, an invalid word, or an operation
executed. -/
theorem cycle_cases (execute : Instr → State → Result) (s : State) :
    (∃ f, fetch s = .error f ∧ cycle execute s = .fault f) ∨
    (∃ w u, fetch s = .ok w ∧ decode w = .invalid u ∧ cycle execute s = .fault (.invalidOpcode u)) ∨
    (∃ i, FetchesOp s i ∧ cycle execute s = execute i s.advance) := by
  rcases hf : fetch s with f | w
  · exact .inl ⟨f, rfl, cycle_of_fetch_error execute hf⟩
  · rcases hd : decode w with i | u
    · exact .inr (.inr ⟨i, ⟨w, hf, hd⟩, cycle_of_fetchesOp execute ⟨w, hf, hd⟩⟩)
    · exact .inr (.inl ⟨w, u, rfl, hd, cycle_of_invalid execute hf hd⟩)

/-- The three ways a step runs: a fetch fault, an invalid word, or an operation executed. -/
theorem step_cases (s : State) :
    (∃ f, fetch s = .error f ∧ step s = .fault f) ∨
    (∃ w u, fetch s = .ok w ∧ decode w = .invalid u ∧ step s = .fault (.invalidOpcode u)) ∨
    (∃ i, FetchesOp s i ∧ step s = exec i s.advance) :=
  cycle_cases exec s

/-- A step answers a next state exactly when the fetched operation does. -/
theorem step_eq_next_iff (s t : State) :
    step s = .next t ↔ ∃ i, FetchesOp s i ∧ exec i s.advance = .next t := by
  constructor
  · intro h
    rcases step_cases s with ⟨f, _, e⟩ | ⟨w, u, _, _, e⟩ | ⟨i, hi, e⟩
    · simp [e] at h
    · simp [e] at h
    · exact ⟨i, hi, e ▸ h⟩
  · rintro ⟨i, hi, h⟩
    rw [step_of_fetchesOp hi, h]

/-- A `RET` whose pop succeeds. -/
theorem exec_ret_of_pop {s t : State} {target : Word} (h : pop s = .ok (target, t)) :
    exec .ret s = .next (t.setPc target) := by
  simp only [exec, execRet, h]

/-- A `RET` whose pop fails. -/
theorem exec_ret_of_pop_error {s : State} {f : Fault} (h : pop s = .error f) : exec .ret s = .fault f := by
  simp only [exec, execRet, h, raise]

/-- A `CALL` whose push succeeds. -/
theorem exec_call_of_push {nnn : Addr12} {s t : State} (h : push s s.pc = .ok t) :
    exec (.call nnn) s = .next (t.setPc (zextAddr nnn)) := by
  simp only [exec, execCall, h]

/-- A `CALL` whose push fails. -/
theorem exec_call_of_push_error {nnn : Addr12} {s : State} {f : Fault} (h : push s s.pc = .error f) :
    exec (.call nnn) s = .fault f := by
  simp only [exec, execCall, h, raise]

/-- What the `step` port answers and leaves when the fetched operation faults. -/
theorem stepPort_of_exec_fault {s : State} {i : Instr} {f : Fault} (h : FetchesOp s i)
    (e : exec i s.advance = .fault f) : stepPort s = (.fault f, s.advance) := by
  have hs : step s = .fault f := by rw [step_of_fetchesOp h, e]
  simp only [stepPort, replyToStep, hs, afterFault_eq, if_pos ((fetchesOp_iff s i).mp h).1]

end Sys2Proof.Machine
end

