-- ==== Sys2Proof/Laws/Params.lean ====
section
/-!
SUPPORT. The parameters of spec/00_scope.md R7 as arguments: the parametric machine at the defaults is the
machine behind the host's interface, and what its reset memory holds.
-/

namespace Sys2Proof.Machine

/-! ### A memory made from its contents -/

theorem Memory.mem_listing {f : Nat → Byte} {c : Host.Cell} (n a : Nat) :
    c ∈ Memory.listing f n a ↔ a ≤ c.1 ∧ c.1 < a + n ∧ c.2 = f c.1 ∧ c.2 ≠ Memory.initial c.1 := by
  induction n generalizing a with
  | zero => simp only [Memory.listing, List.not_mem_nil, false_iff]; omega
  | succ n ih =>
    obtain ⟨k, b⟩ := c
    unfold Memory.listing
    split
    · rename_i h
      rw [ih]
      constructor
      · rintro ⟨h1, h2, h3⟩
        exact ⟨by omega, by omega, h3⟩
      · rintro ⟨h1, h2, h3, h4⟩
        have : k ≠ a := by rintro rfl; exact h4 (h3.trans h)
        exact ⟨by simp only at h1 ⊢; omega, by omega, h3, h4⟩
    · rename_i h
      rw [List.mem_cons, ih]
      constructor
      · rintro (e | ⟨h1, h2, h3⟩)
        · cases e
          exact ⟨Nat.le_refl a, by simp only; omega, rfl, h⟩
        · exact ⟨by omega, by omega, h3⟩
      · rintro ⟨h1, h2, h3, h4⟩
        by_cases hk : k = a
        · subst hk
          exact .inl (Prod.ext rfl h3)
        · exact .inr ⟨by simp only at h1 ⊢; omega, by omega, h3, h4⟩

theorem Memory.pairwise_listing (f : Nat → Byte) (n a : Nat) :
    (Memory.listing f n a).Pairwise (fun c d => c.1 < d.1) := by
  induction n generalizing a with
  | zero => exact List.Pairwise.nil
  | succ n ih =>
    unfold Memory.listing
    split
    · exact ih _
    · exact List.Pairwise.cons (fun c hc => ((Memory.mem_listing n (a + 1)).mp hc).1) (ih _)

theorem Memory.mem_ofContents {f : Nat → Byte} {c : Host.Cell} :
    c ∈ Memory.ofContents f ↔ c.1 < Config.memSize ∧ c.2 = f c.1 ∧ c.2 ≠ Memory.initial c.1 := by
  rw [Memory.ofContents, Memory.mem_listing]
  simp only [Nat.zero_le, true_and, Nat.zero_add]

theorem Memory.wf_ofContents (f : Nat → Byte) : (Memory.ofContents f).wf := by
  refine ⟨Memory.pairwise_listing f Config.memSize 0, fun c hc => ?_⟩
  obtain ⟨h, _, hn⟩ := Memory.mem_ofContents.mp hc
  exact ⟨h, hn⟩

/-- A list whose every cell holds `b` at `a` reads as `b` there, if it lists `a` at all. -/
theorem Memory.read_of_listed (m : Memory) (a : Nat) (b : Byte) (h : ∀ c ∈ m, c.1 = a → c.2 = b)
    (hl : ∃ c ∈ m, c.1 = a) : m.read a = b := by
  induction m with
  | nil => simp at hl
  | cons c m ih =>
    by_cases hc : c.1 = a
    · simp only [Memory.read, hc, if_true]
      exact h c List.mem_cons_self hc
    · simp only [Memory.read, hc, if_false]
      refine ih (fun d hd => h d (List.mem_cons_of_mem _ hd)) ?_
      obtain ⟨d, hd, e⟩ := hl
      rcases List.mem_cons.mp hd with rfl | hd
      · exact absurd e hc
      · exact ⟨d, hd, e⟩

/-- The memory reads as the contents it was made from. -/
theorem Memory.read_ofContents (f : Nat → Byte) {a : Nat} (h : a < Config.memSize) :
    (Memory.ofContents f).read a = f a := by
  by_cases hf : f a = Memory.initial a
  · rw [hf, Memory.read_of_unlisted]
    rintro c hc rfl
    obtain ⟨_, e, hn⟩ := Memory.mem_ofContents.mp hc
    exact hn (e.trans hf)
  · refine Memory.read_of_listed _ a (f a) ?_ ⟨(a, f a), Memory.mem_ofContents.mpr ⟨h, rfl, hf⟩, rfl⟩
    rintro c hc rfl
    exact (Memory.mem_ofContents.mp hc).2.1

theorem Memory.ofContents_initial : Memory.ofContents Memory.initial = [] := by
  rw [List.eq_nil_iff_forall_not_mem]
  intro c hc
  obtain ⟨_, e, hn⟩ := Memory.mem_ofContents.mp hc
  exact hn e

/-! ### The default parameters give the machine of Dispatch.lean and Step.lean -/

theorem defaultParams_wf : defaultParams.wf := ⟨by decide, by decide, by decide, by decide⟩

theorem execWith_default : execWith defaultParams = exec := by
  funext i s
  cases i <;> rfl

theorem stepWith_default : stepWith defaultParams = step := by
  funext s
  simp only [stepWith, execWith_default, step]

theorem resetWith_default : State.resetWith defaultParams = State.reset :=
  congrArg (State.cleared programStart) Memory.ofContents_initial

theorem coreWith_default : coreWith defaultParams = Sys2Proof.core := by
  rw [coreWith, stepWith_default, resetWith_default]
  rfl

theorem transactWith_default : transactWith defaultParams = transact := by
  funext tr s
  cases tr with
  | load image => simp only [transactWith, transact, loadPort, resetWith_default]
  | step => simp only [transactWith, transact, stepPort, stepWith_default]
  | tick | setKey | readDisplay | readTimers => rfl

theorem afterAllWith_default : afterAllWith defaultParams = afterAll := by
  funext trs
  induction trs with
  | nil => rfl
  | cons tr trs ih =>
    funext s
    simp only [afterAllWith, afterAll, ih, transactWith_default]

/-! ### One step of the parametric machine -/

theorem stepWith_of_fetchesOp (p : Params) {s : State} {i : Instr} (h : FetchesOp s i) :
    stepWith p s = execWith p i s.advance :=
  cycle_of_fetchesOp (execWith p) h

/-- The three ways a step of the parametric machine runs. -/
theorem stepWith_cases (p : Params) (s : State) :
    (∃ f, fetch s = .error f ∧ stepWith p s = .fault f) ∨
    (∃ w u, fetch s = .ok w ∧ decode w = .invalid u ∧ stepWith p s = .fault (.invalidOpcode u)) ∨
    (∃ i, FetchesOp s i ∧ stepWith p s = execWith p i s.advance) :=
  cycle_cases (execWith p) s

/-- Where `x` is not `VF`, both flag orders end in the same state (41_alu.md R133). -/
theorem writeFlagged_order (o o' : FlagWriteOrder) {x : Reg} (h : x ≠ 15) (b : Byte) (f : Bool) (s : State) :
    writeFlagged o x b f s = writeFlagged o' x b f s := by
  have hx : x.val ≠ 15 := fun e => h (Fin.ext e)
  cases o <;> cases o' <;>
    simp only [writeFlagged, State.setV, flagReg] <;>
    · congr 1
      first
        | exact Vector.set_comm _ _ (by simpa using hx)
        | exact Vector.set_comm _ _ (by simpa using hx.symm)

end Sys2Proof.Machine
end

