-- ==== Sys2Proof/Laws/PerInstr.lean ====
section
/-!
SUPPORT. Laws about every operation as syntax, one lemma per constructor.
-/

namespace Sys2Proof.Laws.InItsRow

/-- The word a well-formed operation assembles to lies in the operation's own row of the opcode table
(spec/30_encoding.md R76). -/
def Statement (i : Instr) : Prop :=
  i.wellFormed = true →
    ∃ row ∈ opcodeTable, row.number = i.rowNumber ∧ row.accepts (encode i) = true

/-- A word under a mask is the pattern where their numbers agree. -/
theorem accepts_of_toNat {k : Nat} {m p w : Word} (h : (w &&& m).toNat = p.toNat) :
    (OpcodeRow.mk k m p []).accepts w = true := by
  simp [OpcodeRow.accepts, BitVec.eq_of_toNat_eq h]

/-- Rows of one operation per top nibble, in format A. -/
theorem acceptsA {k op : Nat} {p : Word} (h : op < 16) (hp : op * 4096 = p.toNat) (nnn : Addr12) :
    (OpcodeRow.mk k 0xF000#16 p []).accepts (packA op nnn) = true :=
  accepts_of_toNat (by rw [toNat_and_F000, fieldOp_packA op nnn h, hp])

/-- Rows of one operation per top nibble, in format XK. -/
theorem acceptsXK {k op : Nat} {p : Word} (h : op < 16) (hp : op * 4096 = p.toNat) (x : Reg) (kk : Byte) :
    (OpcodeRow.mk k 0xF000#16 p []).accepts (packXK op x kk) = true :=
  accepts_of_toNat (by rw [toNat_and_F000, fieldOp_packXK op x kk h, hp])

/-- Rows of one operation per top nibble, in format XYN. -/
theorem acceptsXYN {k op : Nat} {p : Word} (h : op < 16) (hp : op * 4096 = p.toNat) (x y : Reg)
    (n : Fin 16) : (OpcodeRow.mk k 0xF000#16 p []).accepts (packXYN op x y n) = true :=
  accepts_of_toNat (by rw [toNat_and_F000, fieldOp_packXYN op x y n h, hp])

/-- Rows selected by the low nibble, in format XY. -/
theorem acceptsXY {k op : Nat} {p : Word} {n : Fin 16} (h : op < 16) (hp : op * 4096 + n.val = p.toNat)
    (x y : Reg) : (OpcodeRow.mk k 0xF00F#16 p []).accepts (packXYN op x y n) = true :=
  accepts_of_toNat (by rw [toNat_and_F00F, fieldOp_packXYN op x y n h, fieldN_packXYN op x y n h, hp])

/-- Rows selected by the low byte, in format X. -/
theorem acceptsX {k op : Nat} {p : Word} {f : Byte} (h : op < 16) (hp : op * 4096 + f.toNat = p.toNat)
    (x : Reg) : (OpcodeRow.mk k 0xF0FF#16 p []).accepts (packXK op x f) = true :=
  accepts_of_toNat (by rw [toNat_and_F0FF, fieldOp_packXK op x f h, fieldKk_packXK op x f h, hp])

theorem sys (nnn : Addr12) : Statement (.sys nnn) := by
  intro h
  refine ⟨⟨1, 0xF000#16, 0x0000#16, [0x00E0#16, 0x00EE#16]⟩, by decide, rfl, ?_⟩
  have hn := toNat_packA 0 nnn (by decide)
  have hm : packA 0 nnn &&& 0xF000#16 = 0x0000#16 := by
    apply BitVec.eq_of_toNat_eq
    rw [toNat_and_F000, fieldOp_packA 0 nnn (by decide)]
    rfl
  have hw : nnn ≠ 0x0E0#12 ∧ nnn ≠ 0x0EE#12 := by simpa [Instr.wellFormed] using h
  have h1 : packA 0 nnn ≠ 0x00E0#16 := fun e => hw.1 <| BitVec.eq_of_toNat_eq <| by
    have := congrArg BitVec.toNat e
    rw [hn] at this
    simpa using this
  have h2 : packA 0 nnn ≠ 0x00EE#16 := fun e => hw.2 <| BitVec.eq_of_toNat_eq <| by
    have := congrArg BitVec.toNat e
    rw [hn] at this
    simpa using this
  simp [OpcodeRow.accepts, encode, hm, h1, h2]

theorem cls : Statement .cls :=
  fun _ => ⟨⟨2, 0xFFFF#16, 0x00E0#16, []⟩, by decide, rfl, by decide⟩

theorem ret : Statement .ret :=
  fun _ => ⟨⟨3, 0xFFFF#16, 0x00EE#16, []⟩, by decide, rfl, by decide⟩

theorem jp (nnn : Addr12) : Statement (.jp nnn) :=
  fun _ => ⟨⟨4, 0xF000#16, 0x1000#16, []⟩, by decide, rfl, acceptsA (by decide) rfl nnn⟩

theorem call (nnn : Addr12) : Statement (.call nnn) :=
  fun _ => ⟨⟨5, 0xF000#16, 0x2000#16, []⟩, by decide, rfl, acceptsA (by decide) rfl nnn⟩

theorem seImm (x : Reg) (kk : Byte) : Statement (.seImm x kk) :=
  fun _ => ⟨⟨6, 0xF000#16, 0x3000#16, []⟩, by decide, rfl, acceptsXK (by decide) rfl x kk⟩

theorem sneImm (x : Reg) (kk : Byte) : Statement (.sneImm x kk) :=
  fun _ => ⟨⟨7, 0xF000#16, 0x4000#16, []⟩, by decide, rfl, acceptsXK (by decide) rfl x kk⟩

theorem seReg (x y : Reg) : Statement (.seReg x y) :=
  fun _ => ⟨⟨8, 0xF00F#16, 0x5000#16, []⟩, by decide, rfl, acceptsXY (by decide) rfl x y⟩

theorem ldImm (x : Reg) (kk : Byte) : Statement (.ldImm x kk) :=
  fun _ => ⟨⟨9, 0xF000#16, 0x6000#16, []⟩, by decide, rfl, acceptsXK (by decide) rfl x kk⟩

theorem addImm (x : Reg) (kk : Byte) : Statement (.addImm x kk) :=
  fun _ => ⟨⟨10, 0xF000#16, 0x7000#16, []⟩, by decide, rfl, acceptsXK (by decide) rfl x kk⟩

theorem ldReg (x y : Reg) : Statement (.ldReg x y) :=
  fun _ => ⟨⟨11, 0xF00F#16, 0x8000#16, []⟩, by decide, rfl, acceptsXY (by decide) rfl x y⟩

theorem orReg (x y : Reg) : Statement (.orReg x y) :=
  fun _ => ⟨⟨12, 0xF00F#16, 0x8001#16, []⟩, by decide, rfl, acceptsXY (by decide) rfl x y⟩

theorem andReg (x y : Reg) : Statement (.andReg x y) :=
  fun _ => ⟨⟨13, 0xF00F#16, 0x8002#16, []⟩, by decide, rfl, acceptsXY (by decide) rfl x y⟩

theorem xorReg (x y : Reg) : Statement (.xorReg x y) :=
  fun _ => ⟨⟨14, 0xF00F#16, 0x8003#16, []⟩, by decide, rfl, acceptsXY (by decide) rfl x y⟩

theorem addReg (x y : Reg) : Statement (.addReg x y) :=
  fun _ => ⟨⟨15, 0xF00F#16, 0x8004#16, []⟩, by decide, rfl, acceptsXY (by decide) rfl x y⟩

theorem sub (x y : Reg) : Statement (.sub x y) :=
  fun _ => ⟨⟨16, 0xF00F#16, 0x8005#16, []⟩, by decide, rfl, acceptsXY (by decide) rfl x y⟩

theorem shr (x : Reg) : Statement (.shr x) :=
  fun _ => ⟨⟨17, 0xF00F#16, 0x8006#16, []⟩, by decide, rfl, acceptsXY (by decide) rfl x 0⟩

theorem subn (x y : Reg) : Statement (.subn x y) :=
  fun _ => ⟨⟨18, 0xF00F#16, 0x8007#16, []⟩, by decide, rfl, acceptsXY (by decide) rfl x y⟩

theorem shl (x : Reg) : Statement (.shl x) :=
  fun _ => ⟨⟨19, 0xF00F#16, 0x800E#16, []⟩, by decide, rfl, acceptsXY (by decide) rfl x 0⟩

theorem sneReg (x y : Reg) : Statement (.sneReg x y) :=
  fun _ => ⟨⟨20, 0xF00F#16, 0x9000#16, []⟩, by decide, rfl, acceptsXY (by decide) rfl x y⟩

theorem ldI (nnn : Addr12) : Statement (.ldI nnn) :=
  fun _ => ⟨⟨21, 0xF000#16, 0xA000#16, []⟩, by decide, rfl, acceptsA (by decide) rfl nnn⟩

theorem jpV0 (nnn : Addr12) : Statement (.jpV0 nnn) :=
  fun _ => ⟨⟨22, 0xF000#16, 0xB000#16, []⟩, by decide, rfl, acceptsA (by decide) rfl nnn⟩

theorem rnd (x : Reg) (kk : Byte) : Statement (.rnd x kk) :=
  fun _ => ⟨⟨23, 0xF000#16, 0xC000#16, []⟩, by decide, rfl, acceptsXK (by decide) rfl x kk⟩

theorem drw (x y : Reg) (n : Fin 16) : Statement (.drw x y n) :=
  fun _ => ⟨⟨24, 0xF000#16, 0xD000#16, []⟩, by decide, rfl, acceptsXYN (by decide) rfl x y n⟩

theorem skp (x : Reg) : Statement (.skp x) :=
  fun _ => ⟨⟨25, 0xF0FF#16, 0xE09E#16, []⟩, by decide, rfl, acceptsX (by decide) rfl x⟩

theorem sknp (x : Reg) : Statement (.sknp x) :=
  fun _ => ⟨⟨26, 0xF0FF#16, 0xE0A1#16, []⟩, by decide, rfl, acceptsX (by decide) rfl x⟩

theorem ldVxDt (x : Reg) : Statement (.ldVxDt x) :=
  fun _ => ⟨⟨27, 0xF0FF#16, 0xF007#16, []⟩, by decide, rfl, acceptsX (by decide) rfl x⟩

theorem ldVxK (x : Reg) : Statement (.ldVxK x) :=
  fun _ => ⟨⟨28, 0xF0FF#16, 0xF00A#16, []⟩, by decide, rfl, acceptsX (by decide) rfl x⟩

theorem ldDtVx (x : Reg) : Statement (.ldDtVx x) :=
  fun _ => ⟨⟨29, 0xF0FF#16, 0xF015#16, []⟩, by decide, rfl, acceptsX (by decide) rfl x⟩

theorem ldStVx (x : Reg) : Statement (.ldStVx x) :=
  fun _ => ⟨⟨30, 0xF0FF#16, 0xF018#16, []⟩, by decide, rfl, acceptsX (by decide) rfl x⟩

theorem addI (x : Reg) : Statement (.addI x) :=
  fun _ => ⟨⟨31, 0xF0FF#16, 0xF01E#16, []⟩, by decide, rfl, acceptsX (by decide) rfl x⟩

theorem ldF (x : Reg) : Statement (.ldF x) :=
  fun _ => ⟨⟨32, 0xF0FF#16, 0xF029#16, []⟩, by decide, rfl, acceptsX (by decide) rfl x⟩

theorem ldB (x : Reg) : Statement (.ldB x) :=
  fun _ => ⟨⟨33, 0xF0FF#16, 0xF033#16, []⟩, by decide, rfl, acceptsX (by decide) rfl x⟩

theorem store (x : Reg) : Statement (.store x) :=
  fun _ => ⟨⟨34, 0xF0FF#16, 0xF055#16, []⟩, by decide, rfl, acceptsX (by decide) rfl x⟩

theorem load (x : Reg) : Statement (.load x) :=
  fun _ => ⟨⟨35, 0xF0FF#16, 0xF065#16, []⟩, by decide, rfl, acceptsX (by decide) rfl x⟩

end Sys2Proof.Laws.InItsRow
end

