-- ==== Sys2Proof/Tests/Slice0.lean ====
section
/-!
SUPPORT. Tests from the vectors of spec/95_test_vectors.md (each names its vector) and hand calculation
from the rules, and, for every statement with hypotheses, a concrete witness that meets them.
-/

namespace Sys2Proof.Tests

open Sys2Proof.Machine

/-! ## Helpers -/

/-- The reset state with a word at 0x200. -/
def fetching (w : Nat) : State := State.reset.withFetchWord 16 w

/-- What the next state of a step shows, if the step has one. -/
def shows {α : Type} (s : State) (f : State → α) : Option α :=
  match step s with
  | .next t => some (f t)
  | .fault _ => none
  | .refused _ => none

/-- The fault of a step, if it has one. -/
def faultOf (s : State) : Option Fault :=
  match step s with
  | .next _ => none
  | .fault f => some f
  | .refused _ => none

/-- A step that shows something has a next state. -/
theorem next_of_shows {α : Type} {s : State} {f : State → α} (h : (shows s f).isSome = true) :
    ∃ t, step s = .next t := by
  unfold shows at h
  split at h
  · exact ⟨_, ‹_›⟩
  · simp at h
  · simp at h

/-- A state with key `k` pressed. -/
def pressing (k : Key) (s : State) : State := setKeyPort k true s

/-- A state whose stack holds `n` return addresses 0x206. -/
def stacked (n : Fin 17) (s : State) : State := { s with sp := n, stack := Vector.replicate 16 0x206 }

/-- A state with bytes in memory from an address upward. -/
def holding (a : Nat) (bs : List Byte) (s : State) : State := s.setMem (s.mem.writeSpan a bs)

/-! ## Well-formedness: the one check refuses both its words (30_encoding.md R75) -/

theorem test_sys_0E0_is_ill_formed : (Instr.sys 0x0E0).wellFormed = false := by decide
theorem test_sys_0EE_is_ill_formed : (Instr.sys 0x0EE).wellFormed = false := by decide
theorem test_sys_0E1_is_well_formed : (Instr.sys 0x0E1).wellFormed = true := by decide

/-! ## Decoding: words written out from the patterns of R76, one per constructor -/

theorem test_decode_family0 :
    decode 0x0000#16 = .op (.sys 0x000) ∧ decode 0x00E0#16 = .op .cls ∧ decode 0x00EE#16 = .op .ret ∧
    decode 0x00E1#16 = .op (.sys 0x0E1) := by decide
theorem test_decode_transfers :
    decode 0x1234#16 = .op (.jp 0x234) ∧ decode 0x2210#16 = .op (.call 0x210) ∧
    decode 0xB123#16 = .op (.jpV0 0x123) := by decide
theorem test_decode_skips :
    decode 0x3F01#16 = .op (.seImm 15 0x01) ∧ decode 0x4305#16 = .op (.sneImm 3 0x05) ∧
    decode 0x5120#16 = .op (.seReg 1 2) ∧ decode 0x9AB0#16 = .op (.sneReg 10 11) := by decide
theorem test_decode_immediates :
    decode 0x6A7B#16 = .op (.ldImm 10 0x7B) ∧ decode 0x7301#16 = .op (.addImm 3 0x01) ∧
    decode 0xC30F#16 = .op (.rnd 3 0x0F) ∧ decode 0xA300#16 = .op (.ldI 0x300) := by decide
theorem test_decode_family8_logic :
    decode 0x83F0#16 = .op (.ldReg 3 15) ∧ decode 0x8121#16 = .op (.orReg 1 2) ∧
    decode 0x8122#16 = .op (.andReg 1 2) ∧ decode 0x8123#16 = .op (.xorReg 1 2) := by decide
theorem test_decode_family8_flagged :
    decode 0x8124#16 = .op (.addReg 1 2) ∧ decode 0x8125#16 = .op (.sub 1 2) ∧
    decode 0x8456#16 = .op (.shr 4) ∧ decode 0x8127#16 = .op (.subn 1 2) ∧
    decode 0x840E#16 = .op (.shl 4) := by decide
theorem test_decode_familyDE :
    decode 0xD125#16 = .op (.drw 1 2 5) ∧ decode 0xD120#16 = .op (.drw 1 2 0) ∧
    decode 0xE59E#16 = .op (.skp 5) ∧ decode 0xE5A1#16 = .op (.sknp 5) := by decide
theorem test_decode_familyF :
    decode 0xF107#16 = .op (.ldVxDt 1) ∧ decode 0xF30A#16 = .op (.ldVxK 3) ∧
    decode 0xF015#16 = .op (.ldDtVx 0) ∧ decode 0xF218#16 = .op (.ldStVx 2) ∧
    decode 0xF21E#16 = .op (.addI 2) ∧ decode 0xF129#16 = .op (.ldF 1) ∧
    decode 0xFA33#16 = .op (.ldB 10) ∧ decode 0xF255#16 = .op (.store 2) ∧
    decode 0xFF65#16 = .op (.load 15) := by decide
theorem test_decode_invalid :
    decode 0x5121#16 = .invalid 0x5121 ∧ decode 0x8008#16 = .invalid 0x8008 ∧
    decode 0x800F#16 = .invalid 0x800F ∧ decode 0x9AB1#16 = .invalid 0x9AB1 ∧
    decode 0xE19F#16 = .invalid 0xE19F ∧ decode 0xF000#16 = .invalid 0xF000 ∧
    decode 0xF166#16 = .invalid 0xF166 := by decide
theorem test_encode :
    encode (.addImm 3 0x01) = 0x7301#16 ∧ encode (.drw 1 2 5) = 0xD125#16 ∧
    encodeBytes (.jp 0x234) = [0x12, 0x34] := by decide
theorem test_decode_table_word :
    decodeTableWord 16 0xD125 = some (.drw 1 2 5) ∧ decodeTableWord 16 0x8008 = none := by decide

/-! ## The step (vectors V2) -/

theorem test_V2_1_high_byte_first :
    shows (holding 0x200 [0x61, 0x23] State.reset) (fun t => (t.getV 1, t.pc)) = some (0x23, 0x202) := by
  decide
theorem test_V2_2_last_word :
    shows (holding 0xFFE [0x60, 0x01] (State.reset.setPc 0xFFE)) (fun t => (t.getV 0, t.pc)) =
      some (0x01, 0x1000) := by decide
theorem test_V2_4_second_byte_out_of_range :
    faultOf (State.reset.setPc 0xFFF) = some (.invalidMemoryAccess 0x1000) := by decide
theorem test_V2_5_fetch_out_of_range :
    faultOf (State.reset.setPc 0x10FE) = some (.invalidMemoryAccess 0x10FE) := by decide
theorem test_V2_7_invalid_word :
    transact .step (fetching 0x8008) = (.fault (.invalidOpcode 0x8008), (fetching 0x8008).setPc 0x202) := by
  decide
theorem test_V2_9_no_tick : shows ((fetching 0x6000).setDt 5) (fun t => t.dt) = some 5 := by decide

/-! ## Control transfer (V3) -/

theorem test_V3_1_sys : shows (fetching 0x0123) (fun t => t) = some ((fetching 0x0123).setPc 0x202) := by
  decide
theorem test_V3_2_jp : shows (fetching 0x1234) (fun t => t.pc) = some 0x234 := by decide
theorem test_V3_4_call :
    shows (fetching 0x2210) (fun t => (t.stack[0], t.sp, t.pc)) = some (0x202, 1, 0x210) := by decide
theorem test_V3_5_call_full : faultOf (stacked 16 (fetching 0x2300)) = some .stackOverflow := by decide
theorem test_V3_6_ret :
    shows (stacked 1 (fetching 0x00EE)) (fun t => (t.sp, t.pc, t.stack[0])) = some (0, 0x206, 0x206) := by
  decide
theorem test_V3_7_ret_empty : faultOf (fetching 0x00EE) = some .stackUnderflow := by decide
theorem test_V3_10_jpV0_no_wrap :
    shows ((fetching 0xBFFF).setV 0 0xFF) (fun t => t.pc) = some 0x10FE := by decide
theorem test_V3_11_jpV0_adds_V0 :
    shows (((fetching 0xB500).setV 0 0x01).setV 5 0x80) (fun t => t.pc) = some 0x501 := by decide
theorem test_V3_12_seImm : shows ((fetching 0x3305).setV 3 0x05) (fun t => t.pc) = some 0x204 := by decide
theorem test_V3_13_seImm_not : shows ((fetching 0x3305).setV 3 0x04) (fun t => t.pc) = some 0x202 := by decide
theorem test_V3_14_sneImm : shows ((fetching 0x4305).setV 3 0x04) (fun t => t.pc) = some 0x204 := by decide
theorem test_V3_15_sneImm_not : shows ((fetching 0x4305).setV 3 0x05) (fun t => t.pc) = some 0x202 := by decide
theorem test_V3_16_seReg :
    shows (((fetching 0x5120).setV 1 0x7F).setV 2 0x7F) (fun t => t.pc) = some 0x204 := by decide
theorem test_V3_17_seReg_not :
    shows (((fetching 0x5120).setV 1 0x7F).setV 2 0x7E) (fun t => t.pc) = some 0x202 := by decide
theorem test_V3_19_sneReg :
    shows (((fetching 0x9120).setV 1 0x01).setV 2 0x02) (fun t => t.pc) = some 0x204 := by decide
theorem test_V3_20_sneReg_self : shows ((fetching 0x9440).setV 4 9) (fun t => t.pc) = some 0x202 := by decide

/-! ## ALU (V4) -/

theorem test_V4_2_ldImm_vf : shows (fetching 0x6F05) (fun t => t.getV 15) = some 0x05 := by decide
theorem test_V4_4_addImm_wraps :
    shows ((fetching 0x7002).setV 0 0xFF) (fun t => (t.getV 0, t.getV 15)) = some (0x01, 0x00) := by decide
theorem test_V4_6_ldReg : shows ((fetching 0x83F0).setV 15 0x01) (fun t => t.getV 3) = some 0x01 := by decide
theorem test_V4_7_or :
    shows ((((fetching 0x8121).setV 1 0x0F).setV 2 0xF0).setV 15 7) (fun t => (t.getV 1, t.getV 15)) =
      some (0xFF, 0x07) := by decide
theorem test_V4_8_and :
    shows (((fetching 0x8122).setV 1 0x3C).setV 2 0x0F) (fun t => t.getV 1) = some 0x0C := by decide
theorem test_V4_9_xor :
    shows (((fetching 0x8123).setV 1 0x3C).setV 2 0x0F) (fun t => t.getV 1) = some 0x33 := by decide
theorem test_V4_11_add_carry :
    shows (((fetching 0x8124).setV 1 0xFF).setV 2 0x01) (fun t => (t.getV 1, t.getV 15)) =
      some (0x00, 0x01) := by decide
theorem test_V4_15_add_into_vf :
    shows (((fetching 0x8F14).setV 15 0xFF).setV 1 0x01) (fun t => t.getV 15) = some 0x01 := by decide
theorem test_V4_16_add_into_vf_result_last :
    (writeFlagged .resultLast 15 0x00 true State.reset).getV 15 = 0x00 := by decide
theorem test_V4_17_sub_borrow :
    shows (((fetching 0x8125).setV 1 0x05).setV 2 0x0A) (fun t => (t.getV 1, t.getV 15)) =
      some (0xFB, 0x00) := by decide
theorem test_V4_20_sub_self :
    shows ((fetching 0x8115).setV 1 0x07) (fun t => (t.getV 1, t.getV 15)) = some (0x00, 0x01) := by decide
theorem test_V4_23_shr_ignores_y :
    shows (((fetching 0x8456).setV 4 0x02).setV 5 0xFF) (fun t => (t.getV 4, t.getV 15)) =
      some (0x01, 0x00) := by decide
theorem test_V4_26_shr_vf : shows ((fetching 0x8F66).setV 15 0x03) (fun t => t.getV 15) = some 0x01 := by decide
theorem test_V4_27_subn_borrow :
    shows (((fetching 0x8127).setV 1 0x0A).setV 2 0x05) (fun t => (t.getV 1, t.getV 15)) =
      some (0xFB, 0x00) := by decide
theorem test_V4_28_subn :
    shows (((fetching 0x8127).setV 1 0x05).setV 2 0x0A) (fun t => (t.getV 1, t.getV 15)) =
      some (0x05, 0x01) := by decide
theorem test_V4_30_shl :
    shows ((fetching 0x840E).setV 4 0x81) (fun t => (t.getV 4, t.getV 15)) = some (0x02, 0x01) := by decide
theorem test_V4_31_shl_no_flag :
    shows ((fetching 0x840E).setV 4 0x40) (fun t => (t.getV 4, t.getV 15)) = some (0x80, 0x00) := by decide
theorem test_rnd_takes_one_draw :
    shows (fetching 0xC300) (fun t => (t.draws, t.pc)) = some (1, 0x202) := by decide

/-! ## Display (V5) -/

/-- A state about to draw `bs` from 0x300 at column `x` and row `y`, with `V0` and `V1`. -/
def drawing (w : Nat) (bs : List Byte) (x y : Byte) : State :=
  (((holding 0x300 bs (fetching w)).setI 0x300).setV 0 x).setV 1 y

theorem test_V5_1_cls :
    shows ((fetching 0x00E0).setDisplay ((Display.blank.put 0 0 true).put 63 31 true))
      (fun t => (t.display, t.pc)) = some (Display.blank, 0x202) := by decide
theorem test_V5_3_collision :
    shows ((drawing 0xD011 [0x80] 0 0).setDisplay (Display.blank.put 0 0 true))
      (fun t => (t.pixel 0 0, t.getV 15)) = some (false, 0x01) := by decide
theorem test_V5_4_column_wrap :
    shows (drawing 0xD011 [0xFF] 0x3C 0x05)
      (fun t => [t.pixel 59 5, t.pixel 60 5, t.pixel 63 5, t.pixel 0 5, t.pixel 3 5, t.pixel 4 5, t.getV 15 != 0]) =
      some [false, true, true, true, true, false, false] := by decide
theorem test_V5_5_row_wrap :
    shows (drawing 0xD012 [0x80, 0x80] 0x00 0x1F) (fun t => (t.pixel 0 31, t.pixel 0 0, t.getV 15)) =
      some (true, true, 0x00) := by decide
theorem test_V5_6_coordinates_reduce :
    shows (drawing 0xD011 [0x80] 0x41 0x22) (fun t => (t.pixel 1 2, t.pixel 0 2)) = some (true, false) := by
  decide
theorem test_V5_7_zero_bits_do_not_collide :
    shows ((drawing 0xD011 [0x40] 0 0).setDisplay (Display.blank.put 0 0 true))
      (fun t => (t.pixel 0 0, t.pixel 1 0, t.getV 15)) = some (true, true, 0x00) := by decide
/-- Hand calculation from R161 (log entry 16): over a lit cell the first draw collides and the second does
not, since it turns a dark cell on. -/
theorem test_R161_redraw_over_a_lit_cell :
    let s := (drawing 0xD011 [0x80] 0 0).setDisplay (Display.blank.put 0 0 true)
    shows s (fun t => (t.pixel 0 0, t.getV 15)) = some (false, 1) ∧
    shows (s.setDisplay Display.blank) (fun t => (t.pixel 0 0, t.getV 15)) = some (true, 0) := by decide
/-- Log entry 16, from the words of 42_display.md R163 and vector V5.2 alone. For one cell under a set
sprite bit let `draw` answer the cell and `VF` after a draw. No `draw` meets together: on a dark cell the
cell is lit and `VF` 0 (V5.2); two draws restore the cell; the second of two draws always sets `VF`. -/
theorem test_R163_general_clause_has_no_model :
    ¬ ∃ draw : Bool → Bool × Bool, draw false = (true, false) ∧
      (∀ cell, (draw (draw cell).1).1 = cell) ∧ ∀ cell, (draw (draw cell).1).2 = true := by
  rintro ⟨draw, dark, restores, collides⟩
  have lit : (draw true).1 = false := by simpa [dark] using restores false
  simpa [lit, dark] using collides true
theorem test_V5_8_no_rows : shows (((fetching 0xD120).setV 15 1).setI 0xFFFF) (fun t => t.getV 15) = some 0 := by
  decide
theorem test_V5_9_span_fault :
    faultOf ((fetching 0xD015).setI 0x0FFC) = some (.invalidMemoryAccess 0x1000) := by decide
theorem test_V5_11_old_vf_is_the_coordinate :
    shows (((fetching 0xD0F5).setV 0 0x02).setV 15 0x04)
      (fun t => (t.pixel 2 4, t.pixel 5 4, t.pixel 6 4, t.pixel 3 5, t.pixel 5 7, t.getV 15)) =
      some (true, true, false, false, true, 0x00) := by decide

/-! ## Input and timers (V6) -/

theorem test_V6_1_skp : shows (pressing 7 ((fetching 0xE59E).setV 5 7)) (fun t => t.pc) = some 0x204 := by decide
theorem test_V6_5_skp_above_15 :
    faultOf ((fetching 0xE59E).setV 5 0x10) = some (.undefinedKeyIndex 0x10) := by decide
theorem test_V6_3_sknp : shows ((fetching 0xE5A1).setV 5 7) (fun t => t.pc) = some 0x204 := by decide
theorem test_V6_4_sknp_pressed :
    shows (pressing 7 ((fetching 0xE5A1).setV 5 7)) (fun t => t.pc) = some 0x202 := by decide
theorem test_V6_7_key_wait_stalls : shows (fetching 0xF00A) (fun t => t) = some (fetching 0xF00A) := by decide
theorem test_V6_8_key_wait_least :
    shows (pressing 9 (pressing 3 (fetching 0xF00A))) (fun t => (t.getV 0, t.pc)) = some (0x03, 0x202) := by
  decide
theorem test_V6_10_ldVxDt : shows ((fetching 0xF107).setDt 0x3C) (fun t => t.getV 1) = some 0x3C := by decide
theorem test_V6_11_ldDtVx : shows ((fetching 0xF015).setV 0 7) (fun t => t.dt) = some 7 := by decide
theorem test_V6_12_ldStVx : shows ((fetching 0xF218).setV 2 0x10) (fun t => t.st) = some 0x10 := by decide

/-! ## Index register and memory spans (V7) -/

theorem test_V7_1_ldI : shows (fetching 0xA123) (fun t => t.i) = some 0x123 := by decide
theorem test_V7_2_addI :
    shows (((fetching 0xF11E).setI 0x0FFF).setV 1 1) (fun t => (t.i, t.getV 15)) = some (0x1000, 0) := by decide
theorem test_V7_3_addI_wraps :
    shows (((fetching 0xF11E).setI 0xFFFF).setV 1 2) (fun t => (t.i, t.getV 15)) = some (0x0001, 0) := by decide
theorem test_V7_5_ldF : shows ((fetching 0xF129).setV 1 0x0F) (fun t => t.i) = some 0x04B := by decide
theorem test_V7_6_ldF_above_15 :
    faultOf ((fetching 0xF129).setV 1 0x10) = some (.fontIndexOutOfRange 0x10) := by decide
theorem test_V7_11_ldB :
    shows (((fetching 0xF133).setV 1 0x7B).setI 0x0FFD) (fun t => t.mem.readSpan 0xFFD 3) = some [1, 2, 3] := by
  decide
theorem test_V7_20_ldB_lowest_address :
    faultOf ((fetching 0xF033).setI 0xF000) = some (.invalidMemoryAccess 0xF000) := by decide
theorem test_V7_13_store :
    shows (((((fetching 0xF255).setV 0 0x0A).setV 1 0x0B).setV 2 0x0C).setI 0x300)
      (fun t => (t.mem.readSpan 0x300 4, t.i)) = some ([0x0A, 0x0B, 0x0C, 0x00], 0x300) := by decide
theorem test_V7_15_store_out_of_range :
    faultOf ((fetching 0xF155).setI 0x0FFF) = some (.invalidMemoryAccess 0x1000) := by decide
theorem test_V7_16_load :
    shows ((holding 0x300 [1, 2, 3, 4] (fetching 0xF265)).setI 0x300)
      (fun t => (t.getV 0, t.getV 1, t.getV 2, t.getV 3, t.i)) = some (1, 2, 3, 0, 0x300) := by decide
theorem test_V7_18_load_out_of_range :
    faultOf ((fetching 0xFF65).setI 0x0FFC) = some (.invalidMemoryAccess 0x1000) := by decide

/-! ## Memory and the ports (V8, 10_state.md R31, 20_memory.md R60) -/

theorem test_font_glyph_5 : State.reset.mem.readSpan 0x019 5 = [0xF0, 0x80, 0xF0, 0x10, 0xF0] := by decide
theorem test_memory_restoring_the_reset_byte_unlists_it :
    (Memory.write (Memory.write [] 0x300 0x12) 0x300 0x00) = [] ∧
    (Memory.write (Memory.write [] 0x000 0x12) 0x000 0xF0) = [] := by decide
theorem test_memory_rising : Memory.write (Memory.write [] 0x301 2) 0x300 1 = [(0x300, 1), (0x301, 2)] := by
  decide
theorem test_V8_3_tick :
    (fun t : State => (t.dt, t.st)) (tickPort ((State.reset.setDt 0xFF).setSt 2)) = (0xFE, 1) := by decide
theorem test_V8_2_tick_saturates :
    (fun t : State => (t.dt, t.st)) (tickPort State.reset) = (0, 0) := by decide
theorem test_V8_6_load :
    (transact (.load [0x12, 0x00]) (fetching 0x6005)).2 = holding 0x200 [0x12, 0x00] State.reset := by decide
theorem test_withFetchWord_beyond_memory :
    shows ((State.reset.setPc 0xFFF).withFetchWord 16 0x6105) (fun t => t.getV 1) = some 5 := by decide

/-! ## Witnesses: states and operands that meet the hypotheses of the statements -/

theorem witness_DecodeOfEncodeIsIdentity : (Instr.drw 15 0 15).wellFormed = true := by decide

theorem witness_EncodeOfDecodeRestoresWord :
    decode 0x8456#16 = .op (.shr 4) ∧ decode 0xFF65#16 = .op (.load 15) := by decide

theorem witness_StepRunsDecodedInstruction :
    let s := holding 0xFFE [0x60, 0x01] (State.reset.setPc 0xFFE)
    s.pc.toNat + 1 < 4096 ∧
    (0x6001#16).toNat = (s.mem.read s.pc.toNat).toNat * 256 + (s.mem.read (s.pc.toNat + 1)).toNat ∧
    decode 0x6001#16 = .op (.ldImm 0 0x01) := by decide

theorem witness_FetchOutOfRangeFaults :
    4096 ≤ (State.reset.setPc 0x1000).pc.toNat ∧ 4096 ≤ (State.reset.setPc 0xFFFF).pc.toNat ∧
    (State.reset.setPc 0xFFF).pc.toNat = 4095 := by decide

theorem witness_InvalidWordFaults :
    let s := fetching 0x8008
    s.pc.toNat + 1 < 4096 ∧
    (0x8008#16).toNat = (s.mem.read s.pc.toNat).toNat * 256 + (s.mem.read (s.pc.toNat + 1)).toNat ∧
    decode 0x8008#16 = .invalid 0x8008 := by decide

theorem witness_ProgramCounterAfterStep :
    (∃ t, step (stacked 1 (fetching 0x00EE)) = .next t) ∧
    (∃ t, step (fetching 0x3000) = .next t) ∧ (∃ t, step (fetching 0xF00A) = .next t) ∧
    (∃ t, step (pressing 15 (fetching 0xF00A)) = .next t) ∧
    (∃ t, step (pressing 15 ((fetching 0xE09E).setV 0 15)) = .next t) :=
  ⟨next_of_shows (f := fun t => t.pc) (by decide), next_of_shows (f := fun t => t.pc) (by decide),
   next_of_shows (f := fun t => t.pc) (by decide), next_of_shows (f := fun t => t.pc) (by decide),
   next_of_shows (f := fun t => t.pc) (by decide)⟩

theorem witness_FaultsArePrecise :
    stepPort (State.reset.setPc 0xFFF) = (.fault (.invalidMemoryAccess 4096), State.reset.setPc 0xFFF) ∧
    stepPort (fetching 0x00EE) = (.fault .stackUnderflow, (fetching 0x00EE).setPc 0x202) := by decide

theorem witness_FaultsHaveTheirStatedCause :
    step (stacked 16 (fetching 0x2300)) = .fault .stackOverflow ∧
    step (fetching 0x00EE) = .fault .stackUnderflow ∧
    step ((fetching 0xF055).setI 0x1000) = .fault (.invalidMemoryAccess 4096) ∧
    step (fetching 0xF000) = .fault (.invalidOpcode 0xF000) ∧
    step ((fetching 0xF129).setV 1 0x10) = .fault (.fontIndexOutOfRange 0x10) ∧
    step ((fetching 0xE59E).setV 5 0xFF) = .fault (.undefinedKeyIndex 0xFF) :=
  ⟨rfl, rfl, rfl, rfl, rfl, rfl⟩

theorem witness_OperationsWriteOnlyWhatTheSummaryLists :
    exec (.store 15) ((State.reset.setV 15 1).setI 0xFF0) =
      .next (((State.reset.setV 15 1).setI 0xFF0).setMem [(0xFFF, 1)]) := rfl

theorem witness_HiddenStackEntriesAreUnobservable :
    VisiblyEqual State.reset { State.reset with stack := Vector.replicate 16 0x206 } :=
  ⟨rfl, rfl, rfl, rfl, rfl, rfl, rfl, rfl, rfl, rfl, fun j h => absurd h (by simp [State.reset, State.cleared])⟩

theorem witness_SoundTimerInfluencesNothing : Transaction.step ≠ .readTimers := by decide

/-- A state the invariant holds of that no reset gives: a return address, memory written, `PC` far. -/
def invState : State := (holding 0x300 [1] (stacked 1 State.reset)).setPc 0x10FE

theorem witness_EveryTransactionSequenceKeepsInvariant : Inv invState :=
  ⟨by decide, by decide, by decide⟩

theorem witness_StepKeepsInvariant :
    Inv (stacked 1 (fetching 0x00EE)) ∧ ∃ t, step (stacked 1 (fetching 0x00EE)) = .next t :=
  ⟨⟨by decide, by decide, by decide⟩, next_of_shows (f := fun t => t.pc) (by decide)⟩

theorem witness_RetPopsOrUnderflows :
    0 < (stacked 1 State.reset).sp.val ∧ 0 < (stacked 16 State.reset).sp.val ∧ State.reset.sp.val = 0 := by
  decide

theorem witness_CallPushesOrOverflows :
    State.reset.sp.val < 16 ∧ (stacked 15 State.reset).sp.val < 16 ∧
    (stacked 16 (fetching 0x2300)).sp.val = 16 ∧ FetchesOp (stacked 16 (fetching 0x2300)) (.call 0x300) :=
  ⟨by decide, by decide, by decide, (fetchesOp_iff _ _).mpr ⟨by decide, by decide⟩⟩

theorem witness_RetReturnsBehindTheCall :
    ∃ t, exec (.call 0x300) (stacked 15 State.reset) = .next t := ⟨_, rfl⟩

theorem witness_SelfJumpChangesNothing : SelfJump (fetching 0x1200) :=
  ⟨0x1200, 0x200, (fetch_ok_iff _ _).mpr ⟨by decide, by decide⟩, by decide, by decide⟩

theorem witness_FlaggedDestinationIsNotVf : (14 : Reg) ≠ 15 := by decide

theorem witness_FlagWriteOrderDecidesVf : (14 : Reg) ≠ 15 ∧ (0 : Reg) ≠ 14 ∧ (0 : Reg) ≠ 15 := by decide

theorem witness_DrwTogglesTheCoveredCells :
    ((4 : Fin 16).val = 0 ∨ (State.reset.setI 0x0FFC).i.toNat + (4 : Fin 16).val ≤ 4096) ∧
    ((0 : Fin 16).val = 0 ∨ (State.reset.setI 0xFFFF).i.toNat + (0 : Fin 16).val ≤ 4096) ∧
    Covers (Memory.write [] 0x300 0x01) 0x300 1 0x3F 0x1F 6 31 ∧
    ¬ Covers (Memory.write [] 0x300 0x01) 0x300 1 0x3F 0x1F 5 31 := by
  refine ⟨by decide, by decide, ⟨0, 7, by decide, by decide, by decide, by decide, by decide⟩, ?_⟩
  rintro ⟨r, c, hr, hc, hb, hx, _⟩
  have h6 : c = 6 := by
    change (0x3F + c) % 64 = 5 at hx
    omega
  have h0 : r = 0 := by omega
  subst h6 h0
  exact absurd hb (by decide)

theorem witness_DrwOutOfRangeFaults :
    let s := (fetching 0xD015).setI 0x0FFC
    (5 : Fin 16).val ≠ 0 ∧ 4096 < s.i.toNat + (5 : Fin 16).val ∧ FetchesOp s (.drw 0 1 5) :=
  ⟨by decide, by decide, (fetchesOp_iff _ _).mpr ⟨by decide, by decide⟩⟩

/-- The sprite of one lit bit at 0x300, drawn on a clear display; the second draw runs on the same
registers. -/
theorem witness_RedrawErasesTheSprite :
    let s := drawing 0xD011 [0x80] 0 0
    ∃ t, exec (.drw 0 1 1) s = .next t ∧ t.i = s.i ∧ t.mem = s.mem ∧ t.getV 0 = s.getV 0 ∧
      t.getV 1 = s.getV 1 ∧ (∀ px py, s.pixel px py = false) ∧
      (∃ r c, r < 1 ∧ c < 8 ∧ (s.mem.read (s.i.toNat + r)).getLsbD (7 - c) = true) :=
  ⟨_, rfl, rfl, rfl, by decide, by decide, by decide, 0, 0, by decide, by decide, by decide⟩

/-- The premise of its last clause on a display that is not clear: a lit cell the sprite does not cover. -/
theorem witness_RedrawWithoutCollision :
    shows ((drawing 0xD011 [0x80] 0 0).setDisplay (Display.blank.put 63 31 true))
      (fun t => (t.pixel 63 31, t.getV 15)) = some (true, 0) := by decide

theorem witness_KeySkipsTestTheNamedKey : (15 : Key).val = ((State.reset.setV 5 15).getV 5).toNat := by decide

theorem witness_KeySkipsFaultAboveFifteen :
    16 ≤ ((State.reset.setV 5 16).getV 5).toNat ∧ 16 ≤ ((State.reset.setV 5 255).getV 5).toNat := by decide

theorem witness_KeyWaitCapturesTheLeastKey :
    (∀ k, State.reset.key k = false) ∧ (pressing 15 State.reset).key 15 = true ∧
    (∀ j < (15 : Key), (pressing 15 State.reset).key j = false) ∧ (pressing 0 State.reset).key 0 = true := by
  decide

theorem witness_KeyWaitHoldsUntilAKeyIsSet :
    FetchesOp (fetching 0xF00A) (.ldVxK 0) ∧ (∀ k, (fetching 0xF00A).key k = false) ∧
    ∀ tr ∈ [Transaction.step, .tick, .readDisplay, .readTimers],
      tr = .step ∨ tr = .tick ∨ tr = .readDisplay ∨ tr = .readTimers :=
  ⟨(fetchesOp_iff _ _).mpr ⟨by decide, by decide⟩, by decide, by decide⟩

theorem witness_LdFSetsGlyphAddressOrFaults :
    ((State.reset.setV 1 15).getV 1).toNat ≤ 15 ∧ 15 < ((fetching 0xF129).setV 1 16 |>.getV 1).toNat ∧
    FetchesOp ((fetching 0xF129).setV 1 16) (.ldF 1) :=
  ⟨by decide, by decide, (fetchesOp_iff _ _).mpr ⟨by decide, by decide⟩⟩

theorem witness_LdBStoresDecimalDigits :
    (State.reset.setI 0xFFD).i.toNat + 2 < 4096 ∧ 4096 ≤ ((fetching 0xF133).setI 0xFFE).i.toNat + 2 ∧
    FetchesOp ((fetching 0xF133).setI 0xFFE) (.ldB 1) :=
  ⟨by decide, by decide, (fetchesOp_iff _ _).mpr ⟨by decide, by decide⟩⟩

theorem witness_StoreWritesRegistersUpward :
    (State.reset.setI 0xFF0).i.toNat + (15 : Reg).val < 4096 ∧
    4096 ≤ ((fetching 0xF155).setI 0xFFF).i.toNat + (1 : Reg).val ∧
    FetchesOp ((fetching 0xF155).setI 0xFFF) (.store 1) :=
  ⟨by decide, by decide, (fetchesOp_iff _ _).mpr ⟨by decide, by decide⟩⟩

theorem witness_LoadReadsRegistersUpward :
    (State.reset.setI 0xFF0).i.toNat + (15 : Reg).val < 4096 ∧
    4096 ≤ ((fetching 0xF165).setI 0xFFF).i.toNat + (1 : Reg).val ∧
    FetchesOp ((fetching 0xF165).setI 0xFFF) (.load 1) :=
  ⟨by decide, by decide, (fetchesOp_iff _ _).mpr ⟨by decide, by decide⟩⟩

theorem witness_LoadRestoresWhatStoreSaved :
    ∃ t, exec (.store 15) (State.reset.setI 0xFF0) = .next t ∧ t.i = 0xFF0 := ⟨_, rfl, rfl⟩

theorem witness_StoredBytesAreFetched :
    (∃ t, exec (.store 15) (State.reset.setI 0xFF0) = .next t) ∧ (15 : Reg) ≤ 15 ∧
    (15 : Reg).val = (14 : Reg).val + 1 ∧
    (0xFFE#16).toNat = (State.reset.setI 0xFF0).i.toNat + (14 : Reg).val :=
  ⟨⟨_, rfl⟩, by decide, by decide, by decide⟩

theorem witness_MemoryPrimitivesCheckAndAccessOneByte : 4096 ≤ 4096 ∧ 4095 < 4096 := by decide

theorem witness_LoadResetsAndPlacesTheImage :
    (List.replicate 3584 (1 : Byte)).length ≤ maxImage ∧ maxImage < (List.replicate 3585 (1 : Byte)).length := by
  rw [List.length_replicate, List.length_replicate]
  decide

/-! ## The machine under other parameters (00_scope.md R7) -/

/-- Parameters that differ from the defaults in every field; the font has 80 bytes of 0xFF. -/
def otherParams : Params where
  programStart := 0x600
  fontBase := 0x050
  fontImage := List.replicate 80 0xFF
  flagWriteOrder := .resultLast
  sysBehaviour := .fault
  rnd := fun k => BitVec.ofNat 8 k

theorem test_R7_derived_defaults :
    otherParams.reservedLow = 0x600 ∧ otherParams.maxImage = 2560 ∧ defaultParams.maxImage = 3584 := by decide
theorem test_R101_sys_faults_under_fault :
    stepWith otherParams (fetching 0x0123) = .fault (.invalidOpcode 0x0123) := rfl
theorem test_R133_result_last :
    execWith otherParams (.addReg 15 0) (State.reset.setV 0 7) = .next ((State.reset.setV 0 7).setV 15 7) := rfl
theorem test_R192_glyph_from_the_font_base :
    execWith otherParams (.ldF 0) (State.reset.setV 0 5) = .next ((State.reset.setV 0 5).setI 0x069) := rfl
theorem test_R144_draw_from_the_argument :
    execWith otherParams (.rnd 3 0x0F) { State.reset with draws := 0xAB } =
      .next (({ State.reset with draws := 0xAC } : State).setV 3 0x0B) := rfl
theorem test_R34_reset_at_the_program_start : (State.resetWith otherParams).pc = 0x600 := rfl

/-- Both parameter sets meet the premise of the statements about reset, `load` and the invariant, and the
largest sizes it admits do too. -/
theorem witness_wf :
    defaultParams.wf ∧ otherParams.wf ∧ { otherParams with fontBase := 4016 }.wf ∧
    { otherParams with programStart := 4096, maxImage := 0 }.wf :=
  ⟨defaultParams_wf, ⟨by decide, by decide, by decide, by decide⟩, ⟨by decide, by decide, by decide, by decide⟩,
   ⟨by decide, by decide, by decide, by decide⟩⟩

theorem witness_LoadUnderOtherParams :
    (List.replicate 2560 (1 : Byte)).length ≤ otherParams.maxImage ∧
    otherParams.maxImage < (List.replicate 2561 (1 : Byte)).length := by
  rw [List.length_replicate, List.length_replicate]
  decide

theorem witness_StepWithKeepsInvariant :
    ∃ t, stepWith otherParams (stacked 1 (fetching 0x00EE)) = .next t := ⟨_, rfl⟩

/-- The premises of ParametersReachOnlyTheirOperations: parameters that differ in an order `x = 14` does
not see, that agree in it for `x = 15`, and that differ in all but what the operation reads. -/
theorem witness_ParametersReachOnlyTheirOperations :
    ((14 : Reg) = 15 → defaultParams.flagWriteOrder = otherParams.flagWriteOrder) ∧
    ({ defaultParams with flagWriteOrder := .resultLast }.flagWriteOrder = otherParams.flagWriteOrder) ∧
    ({ defaultParams with sysBehaviour := .fault }.sysBehaviour = otherParams.sysBehaviour) ∧
    ({ defaultParams with fontBase := 0x050 }.fontBase = otherParams.fontBase) ∧
    (otherParams.rnd 3 = { defaultParams with rnd := fun _ => 3 }.rnd 3) ∧
    FetchesOp (fetching 0xF029) (.ldF 0) ∧ ((State.reset.setV 0 15).getV 0).toNat ≤ 15 :=
  ⟨by decide, rfl, rfl, rfl, rfl, ⟨0xF029, rfl, by decide⟩, by decide⟩

end Sys2Proof.Tests
end

section
/-!
SUPPORT. The parameters of spec/00_scope.md R7: what the reset state holds under them, and
which operation each of them reaches.
-/

namespace Sys2Proof.Machine

/-! ### The reset contents of memory (10_state.md R31, R34) -/

theorem Memory.initialWith_font {p : Params} (hp : p.wf) {a : Nat} (ha : a < 80) :
    p.fontImage[a]? = some (Memory.initialWith p (p.fontBase + a)) := by
  obtain ⟨_, _, hlen, _⟩ := hp
  have ha' : a < p.fontImage.length := by omega
  simp [Memory.initialWith, ha']

theorem Memory.initialWith_outside_font {p : Params} (hp : p.wf) {a : Nat}
    (ha : a < p.fontBase ∨ p.fontBase + 80 ≤ a) : Memory.initialWith p a = 0 := by
  obtain ⟨_, _, hlen, _⟩ := hp
  unfold Memory.initialWith
  split
  · exact List.getD_eq_default _ _ (by omega)
  · rfl

/-- The memory of the reset state lists nothing, so each of its bytes is the default one. -/
theorem Memory.read_reset (a : Nat) : State.reset.mem.read a = Memory.initialWith defaultParams a := rfl

theorem Memory.read_resetWith (p : Params) {a : Nat} (ha : a < Config.memSize) :
    (State.resetWith p).mem.read a = Memory.initialWith p a :=
  Memory.read_ofContents _ ha

/-! ### The other fields at reset (10_state.md R34) -/

@[simp] theorem State.getV_cleared (n : Nat) (m : Memory) (r : Reg) : (State.cleared n m).getV r = 0 := by
  simp [State.getV]

@[simp] theorem State.key_cleared (n : Nat) (m : Memory) (k : Key) : (State.cleared n m).key k = false := by
  simp [State.key]

@[simp] theorem State.pixel_cleared (n : Nat) (m : Memory) (x : Fin 64) (y : Fin 32) :
    (State.cleared n m).pixel x y = false :=
  Display.get_blank x y

/-- Two cleared states differ in `PC` and memory alone. -/
theorem State.cleared_congr (n k : Nat) (m m' : Memory) :
    { State.cleared n m with pc := (State.cleared k m').pc, mem := (State.cleared k m').mem } =
      State.cleared k m' := rfl

/-- A well-formed `PROGRAM_START` fits in `PC`. -/
theorem State.toNat_pc_resetWith {p : Params} (hp : p.wf) : (State.resetWith p).pc.toNat = p.programStart := by
  obtain ⟨_, himage, _, _⟩ := hp
  rw [State.resetWith_eq, State.cleared_pc, BitVec.toNat_ofNat]
  simp only [Config.memSize] at himage
  omega

/-- Settles O16: both reset states are `State.cleared`, and their memory reads as the reset contents. -/
theorem resetStateIsAsListed : Obligations.ResetStateIsAsListed := by
  refine ⟨State.getV_cleared _ _, rfl, rfl, rfl, fun j => ?stack, rfl, rfl,
    State.pixel_cleared _ _, State.key_cleared _ _, fun a ha => ?font, fun a ha => ?zero,
    fun p hp => ⟨State.cleared_congr _ _ _ _, State.toNat_pc_resetWith hp, fun a ha => ?fontWith,
      fun a ha hout => ?zeroWith⟩⟩
  case stack => simp [State.reset_eq]
  case font =>
    have h := Memory.initialWith_font defaultParams_wf ha
    rwa [← Memory.read_reset, show defaultParams.fontBase + a = a from Nat.zero_add a] at h
  case zero =>
    exact Memory.initialWith_outside_font defaultParams_wf (.inr (show 0 + 80 ≤ a by omega))
  case fontWith =>
    have ⟨_, _, _, hbase⟩ := hp
    rw [Memory.read_resetWith p (by omega), Memory.initialWith_font hp ha]
  case zeroWith => rw [Memory.read_resetWith p ha, Memory.initialWith_outside_font hp hout]

/-! ### What an operation reads of the parameters -/

/-- A flagged write sees the order only at `x = 15` (41_alu.md R133). -/
theorem writeFlagged_congr {o o' : FlagWriteOrder} {x : Reg} (h : x = 15 → o = o') :
    writeFlagged o x = writeFlagged o' x := by
  by_cases hx : x = 15
  · rw [h hx]
  · funext b f s
    exact writeFlagged_order o o' hx b f s

section FlaggedOperations
variable {o o' : FlagWriteOrder} {x : Reg} (h : x = 15 → o = o') (y : Reg) (s : State)
include h

theorem addRegWith_congr : addRegWith o x y s = addRegWith o' x y s := by
  simp only [addRegWith, writeFlagged_congr h]

theorem subWith_congr : subWith o x y s = subWith o' x y s := by
  simp only [subWith, writeFlagged_congr h]

theorem subnWith_congr : subnWith o x y s = subnWith o' x y s := by
  simp only [subnWith, writeFlagged_congr h]

theorem shrWith_congr : shrWith o x s = shrWith o' x s := by
  simp only [shrWith, writeFlagged_congr h]

theorem shlWith_congr : shlWith o x s = shlWith o' x s := by
  simp only [shlWith, writeFlagged_congr h]

end FlaggedOperations

/-- `RND` takes one draw, the one at the state's own counter (41_alu.md R144). -/
theorem rndWith_congr {f g : Nat → Byte} {s : State} (h : f s.draws = g s.draws) (x : Reg) (kk : Byte) :
    rndWith f x kk s = rndWith g x kk s := by
  simp only [rndWith, drawByte, h]

/-! ### `LD F` under any well-formed parameters (44_index_memory.md R192) -/

/-- A font that lies in memory has every glyph address in 16 bits. -/
theorem glyphAddress_of_wf {p : Params} (hp : p.wf) {d : Byte} (hd : d.toNat ≤ 15) :
    ∃ a, glyphAddress p.fontBase d = some a ∧ a.toNat = p.fontBase + 5 * d.toNat := by
  obtain ⟨_, _, _, hbase⟩ := hp
  refine ⟨_, if_pos hd, ?_⟩
  rw [BitVec.toNat_ofNat]
  simp only [Config.memSize] at hbase
  omega

theorem ldFWith_of_glyphAddress {base : Nat} {x : Reg} {s : State} {a : Word}
    (h : glyphAddress base (s.getV x) = some a) : ldFWith base x s = .next (s.setI a) := by
  simp only [ldFWith, h]

theorem frame_setI (s : State) (w : Word) : Frame { index := true } s (s.setI w) :=
  ⟨fun _ _ => rfl, nofun, fun _ => ⟨rfl, rfl⟩, fun _ => rfl, fun _ => rfl, fun _ _ => rfl, fun _ _ _ => rfl, rfl,
    fun _ => rfl⟩

/-- Settles O60, by cases on the operation: `execWith` hands each parameter to the operations named in the
statement, and every other arm is `exec`, which takes none. -/
theorem parametersReachOnlyTheirOperations : Obligations.ParametersReachOnlyTheirOperations := by
  refine ⟨fun p q i s h => ?_, fun p i s hi => stepWith_of_fetchesOp p hi, fun p x s hp hx => ?_⟩
  · cases i with
    | sys nnn => exact congrArg (sysEffect · (encode (.sys nnn)) s) h
    | addReg x y => exact addRegWith_congr h y s
    | sub x y => exact subWith_congr h y s
    | subn x y => exact subnWith_congr h y s
    | shr x => exact shrWith_congr h s
    | shl x => exact shlWith_congr h s
    | rnd x kk => exact rndWith_congr h x kk
    | ldF x => exact congrArg (ldFWith · x s) h
    | _ => rfl
  · obtain ⟨a, ha, hval⟩ := glyphAddress_of_wf hp hx
    exact ⟨s.setI a, ldFWith_of_glyphAddress ha, hval, frame_setI s a, rfl⟩

end Sys2Proof.Machine
end

section
/-!
SUPPORT. What every operation keeps of the state (spec/10_state.md): the frame of each of the 35 operations
(R33), the invariant of memory, `PC` and the stack (R24, R25), and the two parts of the state that no
operation but their own reads, the stack (R26) and the sound timer (R27).
-/

namespace Sys2Proof.Machine

/-! ### What holds of the next state, if there is one -/

/-- `P` holds of the state the outcome goes on with, where it is not a fault or a refusal. -/
def AllNext (P : State → Prop) (r : Result) : Prop := ∀ t, r = .next t → P t

section AllNext
variable {P : State → Prop} {s : State}

theorem allNext_next (h : P s) : AllNext P (.next s) := by
  rintro _ ⟨⟩
  exact h

theorem allNext_raise (f : Fault) : AllNext P (raise f) := nofun

theorem allNext_guardSpan {base n : Nat} {effect : Result}
    (h : base + n ≤ Config.memSize ∨ n = 0 → AllNext P effect) : AllNext P (guardSpan base n effect) := by
  obtain ⟨hin, e⟩ | ⟨-, -, e⟩ := guardSpan_cases base n effect
  · rw [e]
    exact h hin
  · rw [e]
    exact allNext_raise _

theorem allNext_skipIf (c : Bool) (h : P s) (hskip : P s.advance) : AllNext P (skipIf c s) := by
  cases c
  · exact allNext_next h
  · exact allNext_next hskip

theorem allNext_skipOnKey (pressed : Bool) (x : Reg) (h : P s) (hskip : P s.advance) :
    AllNext P (skipOnKey pressed x s) := by
  unfold skipOnKey
  split
  · exact allNext_skipIf _ h hskip
  · exact allNext_raise _

theorem allNext_sysEffect (b : SysBehaviour) (w : Word) (h : P s) : AllNext P (sysEffect b w s) := by
  cases b
  · exact allNext_next h
  · exact allNext_raise _

theorem allNext_ldFWith (base : Nat) (x : Reg) (h : ∀ w, P (s.setI w)) : AllNext P (ldFWith base x s) := by
  unfold ldFWith
  split
  · exact allNext_next (h _)
  · exact allNext_raise _

theorem allNext_execLdVxK (x : Reg) (hwait : P s.rewind) (h : ∀ b, P (s.setV x b)) :
    AllNext P (execLdVxK x s) := by
  unfold execLdVxK
  split
  · exact allNext_next hwait
  · exact allNext_next (h _)

theorem allNext_execCall (nnn : Addr12)
    (h : ∀ hsp : s.sp.val < 16,
      P { s with stack := s.stack.set s.sp.val s.pc, sp := ⟨s.sp.val + 1, by omega⟩, pc := zextAddr nnn }) :
    AllNext P (execCall nnn s) := by
  unfold execCall
  obtain ⟨hsp, e⟩ | ⟨-, e⟩ := push_cases s s.pc <;> rw [e]
  · exact allNext_next (h hsp)
  · exact allNext_raise _

theorem allNext_execRet
    (h : ∀ hsp : 0 < s.sp.val,
      P { s with sp := ⟨s.sp.val - 1, by omega⟩, pc := s.stack[s.sp.val - 1] }) :
    AllNext P (execRet s) := by
  unfold execRet
  obtain ⟨hsp, e⟩ | ⟨-, e⟩ := pop_cases s <;> rw [e]
  · exact allNext_next (h hsp)
  · exact allNext_raise _

end AllNext

/-! ### The frame of each update (10_state.md R33) -/

/-- Nothing changed, `PC` at most. -/
theorem frame_setPc (w : Writes) (s : State) (pc : Word) : Frame w s (s.setPc pc) :=
  ⟨fun _ _ => rfl, fun _ => rfl, fun _ => ⟨rfl, rfl⟩, fun _ => rfl, fun _ => rfl, fun _ _ => rfl,
    fun _ _ _ => rfl, rfl, fun _ => rfl⟩

theorem frame_refl (w : Writes) (s : State) : Frame w s s := frame_setPc w s s.pc

theorem Frame.setV {w : Writes} {s t : State} (h : Frame w s t) {x : Reg} (hx : x ∈ w.regs) (b : Byte) :
    Frame w s (t.setV x b) := by
  obtain ⟨hregs, hrest⟩ := h
  refine ⟨fun r hr => ?_, hrest⟩
  have hne : r ≠ x := fun e => hr (e ▸ hx)
  rw [State.getV_setV, if_neg hne, hregs r hr]

theorem Frame.writeFlagged {w : Writes} {s t : State} (h : Frame w s t) {x : Reg} (hx : x ∈ w.regs)
    (hf : flagReg ∈ w.regs) (o : FlagWriteOrder) (b : Byte) (f : Bool) :
    Frame w s (writeFlagged o x b f t) := by
  cases o
  · exact (h.setV hx b).setV hf _
  · exact (h.setV hf _).setV hx b

theorem Frame.setDisplay {w : Writes} {s t : State} (h : Frame w s t) (hd : w.display = true)
    (d : Display) : Frame w s (t.setDisplay d) := by
  obtain ⟨hregs, hi, hstack, hdt, hst, hmem, -, hkeys, hdraws⟩ := h
  exact ⟨hregs, hi, hstack, hdt, hst, hmem, fun hno => by simp [hd] at hno, hkeys, hdraws⟩

theorem frame_setDt (s : State) (b : Byte) : Frame { delay := true } s (s.setDt b) := by
  obtain ⟨hregs, hi, hstack, -, hrest⟩ := frame_refl { delay := true } s
  exact ⟨hregs, hi, hstack, nofun, hrest⟩

theorem frame_setSt (s : State) (b : Byte) : Frame { sound := true } s (s.setSt b) := by
  obtain ⟨hregs, hi, hstack, hdt, -, hrest⟩ := frame_refl { sound := true } s
  exact ⟨hregs, hi, hstack, hdt, nofun, hrest⟩

theorem frame_stack (s : State) (k : Vector Word 16) (n : Fin 17) (pc : Word) :
    Frame { stack := true } s { s with stack := k, sp := n, pc := pc } := by
  obtain ⟨hregs, hi, -, hrest⟩ := frame_refl { stack := true } s
  exact ⟨hregs, hi, nofun, hrest⟩

theorem frame_draw (s : State) (regs : List Reg) (n : Nat) :
    Frame { regs := regs, draws := true } s { s with draws := n } := by
  obtain ⟨hregs, hi, hstack, hdt, hst, hmem, hdisplay, hkeys, -⟩ :=
    frame_refl { regs := regs, draws := true } s
  exact ⟨hregs, hi, hstack, hdt, hst, hmem, hdisplay, hkeys, nofun⟩

theorem frame_writeSpan (s : State) (base : Nat) (bs : List Byte) :
    Frame { memBase := base, memLen := bs.length } s (s.setMem (s.mem.writeSpan base bs)) := by
  obtain ⟨hregs, hi, hstack, hdt, hst, -, hrest⟩ :=
    frame_refl { memBase := base, memLen := bs.length } s
  exact ⟨hregs, hi, hstack, hdt, hst, Memory.read_writeSpan_outside bs s.mem base, hrest⟩

theorem frame_loadRegs (s : State) (base : Nat) (x : Reg) :
    Frame { regs := (List.finRange 16).filter (fun r => r ≤ x) } s (loadRegs s base x) := by
  obtain ⟨-, hrest⟩ := frame_refl { regs := (List.finRange 16).filter (fun r => r ≤ x) } s
  refine ⟨fun r hr => ?_, hrest⟩
  have hx : ¬ r ≤ x := by simpa using hr
  rw [getV_loadRegs, if_neg hx]

/-- Settles O13, by cases on the operation: each is made of updates whose frames are the lemmas above. -/
theorem operationsWriteOnlyWhatTheSummaryLists : Obligations.OperationsWriteOnlyWhatTheSummaryLists := by
  intro i s
  change AllNext (Frame (writesOf i s) s) (exec i s)
  have keep := frame_refl (writesOf i s) s
  have keepPc := frame_setPc (writesOf i s) s
  cases i with
  | sys nnn => exact allNext_sysEffect sysBehaviour (encode (.sys nnn)) keep
  | jp | jpV0 => exact allNext_next (keepPc _)
  | seImm | sneImm | seReg | sneReg => exact allNext_skipIf _ keep (keepPc _)
  | skp x | sknp x => exact allNext_skipOnKey _ x keep (keepPc _)
  | call nnn => exact allNext_execCall nnn fun _ => frame_stack s _ _ _
  | ret => exact allNext_execRet fun _ => frame_stack s _ _ _
  | cls => exact allNext_next (keep.setDisplay rfl _)
  | drw => exact allNext_guardSpan fun _ => allNext_next ((keep.setDisplay rfl _).setV (by simp [writesOf]) _)
  | ldImm | addImm | ldReg | orReg | andReg | xorReg | ldVxDt =>
    exact allNext_next (keep.setV (by simp [writesOf]) _)
  | addReg | sub | shr | subn | shl =>
    exact allNext_next (keep.writeFlagged (by simp [writesOf]) (by simp [writesOf]) _ _ _)
  | rnd x => exact allNext_next ((frame_draw s [x] _).setV (by simp) _)
  | ldVxK x => exact allNext_execLdVxK x (keepPc _) fun b => keep.setV (by simp [writesOf]) b
  | ldDtVx => exact allNext_next (frame_setDt s _)
  | ldStVx => exact allNext_next (frame_setSt s _)
  | ldI | addI => exact allNext_next (frame_setI s _)
  | ldF x => exact allNext_ldFWith _ x (frame_setI s)
  | ldB => exact allNext_guardSpan fun _ => allNext_next (frame_writeSpan s _ (decimalDigits _))
  | store x =>
    have hframe := frame_writeSpan s s.i.toNat (regSpan s x)
    rw [length_regSpan] at hframe
    exact allNext_guardSpan fun _ => allNext_next hframe
  | load x => exact allNext_guardSpan fun _ => allNext_next (frame_loadRegs s _ x)

/-! ### The invariant (10_state.md R24, R25; 40_control_flow.md R100, R105) -/

theorem Inv.setPc {s : State} (h : Inv s) {w : Word} (hw : w.toNat ≤ 0x10FE) : Inv (s.setPc w) := by
  obtain ⟨hmem, -, hstack⟩ := h
  exact ⟨hmem, hw, hstack⟩

theorem Inv.setMem {s : State} (h : Inv s) {m : Memory} (hm : m.wf) : Inv (s.setMem m) := by
  obtain ⟨-, hpc, hstack⟩ := h
  exact ⟨hm, hpc, hstack⟩

theorem Inv.writeSpan {s : State} (h : Inv s) {base : Nat} (bs : List Byte)
    (hb : base + bs.length ≤ Config.memSize) : Inv (s.setMem (s.mem.writeSpan base bs)) := by
  have ⟨hmem, _, _⟩ := h
  exact h.setMem (Memory.wf_writeSpan bs hmem hb)

theorem Inv.writeFlagged {s : State} (h : Inv s) (o : FlagWriteOrder) (x : Reg) (b : Byte) (f : Bool) :
    Inv (writeFlagged o x b f s) := by
  cases o <;> exact h

/-- What a `CALL` leaves (R104): the pushed address is the pre-advanced `PC`, at most 0x1000 after a fetch. -/
theorem Inv.push {s : State} (h : Inv s) (hsp : s.sp.val < 16) {w target : Word} (hw : w.toNat ≤ 0x1000)
    (ht : target.toNat ≤ 0x10FE) :
    Inv { s with stack := s.stack.set s.sp.val w, sp := ⟨s.sp.val + 1, by omega⟩, pc := target } := by
  obtain ⟨hmem, -, hstack⟩ := h
  refine ⟨hmem, ht, fun j hj => ?_⟩
  rw [Vector.getElem_set]
  split
  · exact hw
  · exact hstack j (by simp only at hj; omega)

theorem Inv.pop {s : State} (h : Inv s) (hsp : 0 < s.sp.val) :
    Inv { s with sp := ⟨s.sp.val - 1, by omega⟩, pc := s.stack[s.sp.val - 1] } := by
  obtain ⟨hmem, -, hstack⟩ := h
  have htop : s.stack[s.sp.val - 1].toNat ≤ 0x1000 :=
    hstack ⟨s.sp.val - 1, by omega⟩ (by simp only; omega)
  exact ⟨hmem, by simp only; omega, fun j hj => hstack j (by simp only at hj; omega)⟩

theorem toNat_zextAddr (nnn : Addr12) : (zextAddr nnn).toNat = nnn.toNat := by
  have := nnn.isLt
  simp only [zextAddr, BitVec.toNat_setWidth]
  omega

/-- The target of `JP V0, nnn` is a sum that does not wrap (R105). -/
theorem toNat_indexedTarget (nnn : Addr12) (b : Byte) :
    (zextAddr nnn + zextByte b).toNat = nnn.toNat + b.toNat := by
  have := nnn.isLt
  have := b.isLt
  simp only [BitVec.toNat_add, toNat_zextAddr, zextByte, BitVec.toNat_setWidth]
  omega

/-- Every operation keeps the invariant where the pre-advanced `PC` lies in the range a fetch leaves it in. -/
theorem execWith_keeps_inv (p : Params) (i : Instr) {s : State} (h : Inv s) (hlow : 2 ≤ s.pc.toNat)
    (hhigh : s.pc.toNat ≤ 0x1000) : AllNext Inv (execWith p i s) := by
  have hskip : Inv s.advance := h.setPc (by simp only [BitVec.toNat_add, BitVec.toNat_ofNat]; omega)
  have hwait : Inv s.rewind := h.setPc (by simp only [BitVec.toNat_sub, BitVec.toNat_ofNat]; omega)
  have hjump (nnn : Addr12) : (zextAddr nnn).toNat ≤ 0x10FE := by
    have := nnn.isLt
    rw [toNat_zextAddr]
    omega
  cases i with
  | sys nnn => exact allNext_sysEffect _ _ h
  | jp nnn => exact allNext_next (h.setPc (hjump nnn))
  | jpV0 nnn =>
    refine allNext_next (h.setPc ?_)
    have := nnn.isLt
    have := (s.getV 0).isLt
    rw [toNat_indexedTarget]
    omega
  | call nnn => exact allNext_execCall nnn fun hsp => h.push hsp hhigh (hjump nnn)
  | ret => exact allNext_execRet h.pop
  | seImm | sneImm | seReg | sneReg => exact allNext_skipIf _ h hskip
  | skp x | sknp x => exact allNext_skipOnKey _ x h hskip
  | ldVxK x => exact allNext_execLdVxK x hwait fun _ => h
  | addReg | sub | shr | subn | shl => exact allNext_next (h.writeFlagged _ _ _ _)
  | ldF x => exact allNext_ldFWith _ x fun _ => h
  | drw | load => exact allNext_guardSpan fun _ => allNext_next h
  | ldB =>
    exact allNext_guardSpan fun hin =>
      allNext_next (h.writeSpan (decimalDigits _) (hin.resolve_right (by decide)))
  | store x => exact allNext_guardSpan fun hin => allNext_next (h.writeSpan _ (by simpa using hin))
  | cls | ldImm | addImm | ldReg | orReg | andReg | xorReg | ldVxDt | rnd | ldDtVx | ldStVx | ldI | addI =>
    exact allNext_next h

theorem stepWith_keeps_inv (p : Params) {s : State} (h : Inv s) : AllNext Inv (stepWith p s) := by
  obtain ⟨f, -, e⟩ | ⟨w, u, -, -, e⟩ | ⟨i, hi, e⟩ := stepWith_cases p s
  · exact e ▸ allNext_raise f
  · exact e ▸ allNext_raise _
  · obtain ⟨hfetch, -⟩ := (fetchesOp_iff s i).mp hi
    have hpc := advance_pc_toNat hfetch
    simp only [Config.memSize] at hfetch
    exact e ▸ execWith_keeps_inv p i (h.setPc (by rw [← State.advance_pc]; omega)) (by omega) (by omega)

/-- Settles O18: a step leaves fetch with `PC` from 2 to 0x1000, and from there every operation keeps the
invariant; `step` is `stepWith` at the defaults. -/
theorem stepKeepsInvariant : Obligations.StepKeepsInvariant :=
  ⟨fun _ t h => stepWith_default ▸ stepWith_keeps_inv defaultParams h t,
    fun p _ t h => stepWith_keeps_inv p h t⟩

/-! ### The stack and the sound timer changed from outside -/

/-- The stack entries changed by `k` and the sound timer by `g`, all else as it was. -/
def State.mapStackSt (k : Vector Word 16 → Vector Word 16) (g : Byte → Byte) (s : State) : State :=
  { s with stack := k s.stack, st := g s.st }

/-- The outcome with its next state, if there is one, changed by `f`. -/
def mapNext (f : State → State) : Result → Result
  | .next t => .next (f t)
  | .fault r => .fault r
  | .refused r => .refused r

theorem guardSpan_mapNext {f : State → State} (base n : Nat) {effect effect' : Result}
    (h : effect' = mapNext f effect) : guardSpan base n effect' = mapNext f (guardSpan base n effect) := by
  unfold guardSpan
  split
  · rfl
  · exact h

section MapStackSt
variable (k : Vector Word 16 → Vector Word 16) (g : Byte → Byte) (s : State)

theorem skipIf_mapStackSt (c : Bool) :
    skipIf c (s.mapStackSt k g) = mapNext (State.mapStackSt k g) (skipIf c s) := by
  cases c <;> rfl

@[simp] theorem State.getV_mapStackSt (x : Reg) : (s.mapStackSt k g).getV x = s.getV x := rfl
@[simp] theorem State.key_mapStackSt (j : Key) : (s.mapStackSt k g).key j = s.key j := rfl

theorem skipOnKey_mapStackSt (pressed : Bool) (x : Reg) :
    skipOnKey pressed x (s.mapStackSt k g) = mapNext (State.mapStackSt k g) (skipOnKey pressed x s) := by
  cases h : keyIndex (s.getV x) <;> simp only [skipOnKey, State.getV_mapStackSt, State.key_mapStackSt, h]
  · rfl
  · exact skipIf_mapStackSt k g s _

theorem execLdVxK_mapStackSt (x : Reg) :
    execLdVxK x (s.mapStackSt k g) = mapNext (State.mapStackSt k g) (execLdVxK x s) := by
  have hleast : leastPressed (s.mapStackSt k g) = leastPressed s := rfl
  cases h : leastPressed s <;> simp only [execLdVxK, hleast, h] <;> rfl

theorem ldFWith_mapStackSt (base : Nat) (x : Reg) :
    ldFWith base x (s.mapStackSt k g) = mapNext (State.mapStackSt k g) (ldFWith base x s) := by
  cases h : glyphAddress base (s.getV x) <;> simp only [ldFWith, State.getV_mapStackSt, h] <;> rfl

theorem exec_call_mapSt (nnn : Addr12) :
    exec (.call nnn) (s.mapStackSt id g) = mapNext (State.mapStackSt id g) (exec (.call nnn) s) := by
  by_cases h : s.sp.val < 16
  · rw [exec_call_of_push (push_ok h _), exec_call_of_push (push_ok (s := s.mapStackSt id g) h _)]
    rfl
  · have hfull : s.sp = 16 := by omega
    rw [exec_call_of_push_error (push_full hfull _),
      exec_call_of_push_error (push_full (s := s.mapStackSt id g) hfull _)]
    rfl

theorem exec_ret_mapSt :
    exec .ret (s.mapStackSt id g) = mapNext (State.mapStackSt id g) (exec .ret s) := by
  by_cases h : 0 < s.sp.val
  · rw [exec_ret_of_pop (pop_ok h), exec_ret_of_pop (pop_ok (s := s.mapStackSt id g) h)]
    rfl
  · have hempty : s.sp = 0 := by omega
    rw [exec_ret_of_pop_error (pop_empty hempty),
      exec_ret_of_pop_error (pop_empty (s := s.mapStackSt id g) hempty)]
    rfl

end MapStackSt

/-- An operation reads of the stack and the sound timer at most what the access summary lets it write
(10_state.md R33): changes of the others pass through it. -/
theorem exec_mapStackSt {k : Vector Word 16 → Vector Word 16} {g : Byte → Byte} (i : Instr) (s : State)
    (hstack : (writesOf i s).stack = true → k = id) (hsound : (writesOf i s).sound = true → g = id) :
    exec i (s.mapStackSt k g) = mapNext (State.mapStackSt k g) (exec i s) := by
  cases i with
  | seImm | sneImm | seReg | sneReg => exact skipIf_mapStackSt k g s _
  | skp x | sknp x => exact skipOnKey_mapStackSt k g s _ x
  | ldVxK x => exact execLdVxK_mapStackSt k g s x
  | ldF x => exact ldFWith_mapStackSt k g s _ x
  | drw | ldB | store | load => exact guardSpan_mapNext s.i.toNat _ rfl
  | call nnn =>
    obtain rfl := hstack rfl
    exact exec_call_mapSt g s nnn
  | ret =>
    obtain rfl := hstack rfl
    exact exec_ret_mapSt g s
  | ldStVx =>
    obtain rfl := hsound rfl
    rfl
  | _ => rfl

/-! ### Two runs that agree -/

/-- The two outcomes are of one kind, with the same reason or with next states that `R` relates. -/
inductive AgreeNext (R : State → State → Prop) : Result → Result → Prop
  | next {t u : State} (h : R t u) : AgreeNext R (.next t) (.next u)
  | fault (f : Fault) : AgreeNext R (.fault f) (.fault f)
  | refused (q : Refusal) : AgreeNext R (.refused q) (.refused q)

/-- The two transactions answer alike and leave states that `R` relates. -/
def AgreePort (R : State → State → Prop) (a b : Reply × State) : Prop := a.1 = b.1 ∧ R a.2 b.2

section Agree
variable {R : State → State → Prop} {s t : State}

theorem agreeNext_mapNext {f : State → State} (r : Result) (h : AllNext (fun u => R u (f u)) r) :
    AgreeNext R r (mapNext f r) := by
  cases r with
  | next u => exact .next (h u rfl)
  | fault f => exact .fault f
  | refused q => exact .refused q

theorem step_agree (hfetch : fetch t = fetch s)
    (hexec : ∀ i, AgreeNext R (exec i s.advance) (exec i t.advance)) :
    AgreeNext R (step s) (step t) := by
  obtain ⟨f, hf, e⟩ | ⟨w, u, hw, hu, e⟩ | ⟨i, ⟨w, hw, hi⟩, e⟩ := step_cases s
  · rw [e, step_of_fetch_error (hfetch.trans hf)]
    exact .fault f
  · rw [e, step_of_invalid (hfetch.trans hw) hu]
    exact .fault _
  · rw [e, step_of_fetchesOp ⟨w, hfetch.trans hw, hi⟩]
    exact hexec i

theorem afterFault_agree (hfetch : fetch t = fetch s) (h : R s t) (hadv : R s.advance t.advance) :
    R (afterFault s) (afterFault t) := by
  unfold afterFault
  rw [hfetch]
  split
  · exact h
  · exact hadv

theorem replyToStep_agree {r r' : Result} (hr : AgreeNext R r r') (h : R s t)
    (hfault : R (afterFault s) (afterFault t)) : AgreePort R (replyToStep r s) (replyToStep r' t) := by
  cases hr with
  | next hnext => exact ⟨rfl, hnext⟩
  | fault f => exact ⟨rfl, hfault⟩
  | refused q => exact ⟨rfl, h⟩

/-- The `step` port agrees on two states where the same word is fetched and every operation agrees. -/
theorem stepPort_agree (hfetch : fetch t = fetch s) (h : R s t) (hadv : R s.advance t.advance)
    (hexec : ∀ i, AgreeNext R (exec i s.advance) (exec i t.advance)) :
    AgreePort R (stepPort s) (stepPort t) :=
  replyToStep_agree (step_agree hfetch hexec) h (afterFault_agree hfetch h hadv)

/-- `load` keeps nothing of the state but the draw counter, or all of it (70_reset_and_hazards.md R241). -/
theorem loadPort_agree (image : List Byte) (h : R s t) (hrefl : ∀ u, R u u) (hdraws : t.draws = s.draws) :
    AgreePort R (loadPort image s) (loadPort image t) := by
  unfold loadPort loadImage
  rw [hdraws]
  split
  · exact ⟨rfl, h⟩
  · exact ⟨rfl, hrefl _⟩

end Agree

/-! ### The hidden stack entries (10_state.md R26) -/

/-- The entries of `k` below `SP` are those of the stack of `s`. -/
def AgreesBelowSp (s : State) (k : Vector Word 16) : Prop :=
  ∀ j : Fin 16, j.val < s.sp.val → s.stack[j.val] = k[j.val]

/-- `s` with the stack entries `k`. -/
abbrev State.withStack (s : State) (k : Vector Word 16) : State := s.mapStackSt (fun _ => k) id

theorem visiblyEqual_withStack {s : State} {k : Vector Word 16} (h : AgreesBelowSp s k) :
    VisiblyEqual s (s.withStack k) :=
  ⟨rfl, rfl, rfl, rfl, rfl, rfl, rfl, rfl, rfl, rfl, h⟩

theorem VisiblyEqual.refl (s : State) : VisiblyEqual s s := visiblyEqual_withStack fun _ _ => rfl

theorem VisiblyEqual.exists_withStack {s t : State} (h : VisiblyEqual s t) :
    ∃ k, AgreesBelowSp s k ∧ t = s.withStack k := by
  obtain ⟨hv, hi, hpc, hsp, hdt, hst, hmem, hdisplay, hkeys, hdraws, hstack⟩ := h
  refine ⟨t.stack, hstack, ?_⟩
  cases t
  subst hv hi hpc hsp hdt hst hmem hdisplay hkeys hdraws
  rfl

section HiddenStack
variable {s : State} {k : Vector Word 16} (h : AgreesBelowSp s k)
include h

theorem exec_call_hides_stack (nnn : Addr12) :
    AgreeNext VisiblyEqual (exec (.call nnn) s) (exec (.call nnn) (s.withStack k)) := by
  by_cases hsp : s.sp.val < 16
  · rw [exec_call_of_push (push_ok hsp _), exec_call_of_push (push_ok (s := s.withStack k) hsp _)]
    refine .next (visiblyEqual_withStack (k := k.set s.sp.val s.pc) fun j hj => ?_)
    have hj : j.val < s.sp.val + 1 := hj
    show (s.stack.set s.sp.val s.pc)[j.val] = _
    rw [Vector.getElem_set, Vector.getElem_set]
    split
    · rfl
    · exact h j (by omega)
  · have hfull : s.sp = 16 := by omega
    rw [exec_call_of_push_error (push_full hfull _),
      exec_call_of_push_error (push_full (s := s.withStack k) hfull _)]
    exact .fault _

theorem exec_ret_hides_stack : AgreeNext VisiblyEqual (exec .ret s) (exec .ret (s.withStack k)) := by
  by_cases hsp : 0 < s.sp.val
  · have htop : s.stack[s.sp.val - 1] = k[s.sp.val - 1] := h ⟨s.sp.val - 1, by omega⟩ (by simp only; omega)
    rw [exec_ret_of_pop (pop_ok hsp), exec_ret_of_pop (pop_ok (s := s.withStack k) hsp), htop]
    exact .next (visiblyEqual_withStack fun j hj => h j (Nat.lt_of_lt_of_le hj (Nat.sub_le _ _)))
  · have hempty : s.sp = 0 := by omega
    rw [exec_ret_of_pop_error (pop_empty hempty),
      exec_ret_of_pop_error (pop_empty (s := s.withStack k) hempty)]
    exact .fault _

/-- An operation that does not write the stack leaves the visible entries what they were, and does not read
the others. -/
theorem exec_hides_unwritten_stack {i : Instr} (hstack : (writesOf i s).stack = false) :
    AgreeNext VisiblyEqual (exec i s) (exec i (s.withStack k)) := by
  rw [exec_mapStackSt i s (by simp [hstack]) (fun _ => rfl)]
  refine agreeNext_mapNext _ fun u hu => visiblyEqual_withStack fun j hj => ?_
  obtain ⟨-, -, hkeep, -⟩ := operationsWriteOnlyWhatTheSummaryLists i s u hu
  obtain ⟨hsp, hst⟩ := hkeep hstack
  rw [hst]
  exact h j (hsp ▸ hj)

theorem exec_hides_stack (i : Instr) : AgreeNext VisiblyEqual (exec i s) (exec i (s.withStack k)) := by
  cases i with
  | call nnn => exact exec_call_hides_stack h nnn
  | ret => exact exec_ret_hides_stack h
  | _ => exact exec_hides_unwritten_stack h rfl

end HiddenStack

/-- Settles O14: no port but `step` looks at the stack, and every operation a step can run hides it. -/
theorem hiddenStackEntriesAreUnobservable : Obligations.HiddenStackEntriesAreUnobservable := by
  intro s t tr hst
  obtain ⟨k, h, rfl⟩ := hst.exists_withStack
  cases tr with
  | load image => exact loadPort_agree image hst VisiblyEqual.refl rfl
  | step => exact stepPort_agree rfl hst (visiblyEqual_withStack h) (exec_hides_stack (s := s.advance) h)
  | tick | setKey => exact ⟨rfl, visiblyEqual_withStack h⟩
  | readDisplay | readTimers => exact ⟨rfl, hst⟩

/-! ### The sound timer (10_state.md R27) -/

/-- The two states hold the same in everything but the sound timer. -/
def EqualUpToSt (s t : State) : Prop := { s with st := 0 } = { t with st := 0 }

theorem equalUpToSt_setSt (s : State) (b : Byte) : EqualUpToSt s (s.setSt b) := rfl

theorem exec_ignores_unwritten_st {i : Instr} {s : State} (hsound : (writesOf i s).sound = false) (b : Byte) :
    AgreeNext EqualUpToSt (exec i s) (exec i (s.setSt b)) := by
  have hmap : exec i (s.setSt b) = mapNext (State.mapStackSt id fun _ => b) (exec i s) :=
    exec_mapStackSt (g := fun _ => b) i s (fun _ => rfl) (by simp [hsound])
  rw [hmap]
  exact agreeNext_mapNext _ fun u _ => equalUpToSt_setSt u b

theorem exec_ignores_st (i : Instr) (s : State) (b : Byte) :
    AgreeNext EqualUpToSt (exec i s) (exec i (s.setSt b)) := by
  cases i with
  | ldStVx x => exact .next (equalUpToSt_setSt _ _)
  | _ => exact exec_ignores_unwritten_st rfl b

theorem transact_ignores_st {tr : Transaction} (htr : tr ≠ .readTimers) (s : State) (b : Byte) :
    AgreePort EqualUpToSt (transact tr s) (transact tr (s.setSt b)) := by
  have h := equalUpToSt_setSt s b
  cases tr with
  | load image => exact loadPort_agree image h (fun _ => rfl) rfl
  | step => exact stepPort_agree rfl h (equalUpToSt_setSt _ b) fun i => exec_ignores_st i s.advance b
  | tick | setKey => exact ⟨rfl, equalUpToSt_setSt _ _⟩
  | readDisplay => exact ⟨rfl, h⟩
  | readTimers => exact absurd rfl htr

/-- Settles O15: every operation a step can run ignores the sound timer, and the other ports but
`read_timers` carry it at most into itself. -/
theorem soundTimerInfluencesNothing : Obligations.SoundTimerInfluencesNothing := by
  intro s b tr htr
  obtain ⟨hreply, hstate⟩ := transact_ignores_st htr s b
  exact ⟨hreply.symm, hstate.symm⟩

end Sys2Proof.Machine
end

section
/-!
SUPPORT. The rules of spec/20_memory.md: the one-byte primitives (R52, R53), the check of a span (R54), the
fetch out of range (R55), and a stored word that is fetched (R64).
-/

namespace Sys2Proof.Machine

/-! ### The step port after a fetch fault (20_memory.md R55) -/

/-- A fetch fault is what the step answers, and the state is left as it was (60_exceptions.md R215). -/
theorem stepPort_of_fetch_error {s : State} {f : Fault} (h : fetch s = .error f) :
    stepPort s = (.fault f, s) := by
  simp only [stepPort, replyToStep, step_of_fetch_error h, afterFault, h]

/-- Settles O7, from the one address `fetch` reports wherever a byte of the word is out of range. -/
theorem fetchOutOfRangeFaults : Obligations.FetchOutOfRangeFaults := by
  intro s
  have faults {a : Nat} (hpc : 4096 ≤ s.pc.toNat + 1) (ha : a = max s.pc.toNat 4096) :
      step s = .fault (.invalidMemoryAccess a) ∧ stepPort s = (.fault (.invalidMemoryAccess a), s) := by
    have hf : fetch s = .error (.invalidMemoryAccess a) := (fetch_error_iff s _).mpr ⟨hpc, ha ▸ rfl⟩
    exact ⟨step_of_fetch_error hf, stepPort_of_fetch_error hf⟩
  exact ⟨fun h => faults (by omega) (by omega), fun h => faults (by omega) (by omega)⟩

/-! ### The one-byte primitives (20_memory.md R52, R53) -/

theorem memRead_setMem_write (s : State) {a : Nat} (ha : a < Config.memSize) (b : Byte) (c : Nat) :
    memRead (s.setMem (s.mem.write a b)) c = if c = a then .ok b else memRead s c := by
  rw [memRead_eq, State.setMem_mem, Memory.read_write]
  by_cases hc : c = a
  · simp only [hc, ha, if_true]
  · simp only [hc, if_false, memRead_eq]

/-- Settles O54, from what each primitive does in range and out of range. -/
theorem memoryPrimitivesCheckAndAccessOneByte : Obligations.MemoryPrimitivesCheckAndAccessOneByte := by
  intro s a b
  refine ⟨fun ha => ?_, fun ha => ?_⟩
  · have hout : ¬ a < Config.memSize := Nat.not_lt.mpr ha
    exact ⟨by rw [memRead_eq, if_neg hout], by rw [memWrite_eq, if_neg hout]⟩
  · have hin : a < Config.memSize := ha
    refine ⟨by rw [memRead_eq, if_pos hin], s.setMem (s.mem.write a b), by rw [memWrite_eq, if_pos hin], ?_,
      fun c hc => ?_, rfl⟩
    · rw [memRead_setMem_write s hin, if_pos rfl]
    · rw [memRead_setMem_write s hin, if_neg hc]

/-! ### The check of a span (20_memory.md R54) -/

/-- Settles O55: the addresses of the span rise, so the first one at or above 4096 is the larger of the
base and 4096, where the span reaches that far. -/
theorem spanFaultCarriesLowestAddress : Obligations.SpanFaultCarriesLowestAddress := by
  intro base n
  rw [← List.range'_eq_map_range]
  by_cases hin : base + n ≤ 4096 ∨ n = 0
  · have hnone : (List.range' base n).find? (fun a => decide (4096 ≤ a)) = none := by
      rw [List.find?_range'_eq_none]
      intro a hlow hhigh
      simp only [Bool.not_eq_true', decide_eq_false_iff_not]
      omega
    rw [spanFault_none hin, hnone]
    rfl
  · have hsome : (List.range' base n).find? (fun a => decide (4096 ≤ a)) = some (max base 4096) := by
      rw [List.find?_range'_eq_some]
      refine ⟨by simp, ?_, fun a hlow hhigh => ?_⟩
      · rw [List.mem_range'_1]
        omega
      · simp only [Bool.not_eq_true', decide_eq_false_iff_not]
        omega
    push Not at hin
    rw [spanFault_some hin.1 hin.2, hsome]
    rfl

/-! ### Stored bytes and the fetch (20_memory.md R64) -/

/-- `LD [I], Vx` goes on exactly where its span lies in memory, with the span written (44_index_memory.md
R194). -/
theorem exec_store_eq_next_iff (x : Reg) (s t : State) :
    exec (.store x) s = .next t ↔ s.i.toNat + x.val < Config.memSize ∧
      t = s.setMem (s.mem.writeSpan s.i.toNat (regSpan s x)) := by
  change guardSpan s.i.toNat (x.val + 1) _ = _ ↔ _
  obtain ⟨hin, e⟩ | ⟨hout, -, e⟩ := guardSpan_cases s.i.toNat (x.val + 1)
    (.next (s.setMem (s.mem.writeSpan s.i.toNat (regSpan s x))))
  · have hlast : s.i.toNat + x.val < Config.memSize := by omega
    simp only [e, Host.Outcome.next.injEq, hlast, true_and, eq_comm]
  · simp only [e, reduceCtorEq, false_iff, not_and]
    omega

/-- `LD [I], Vx` puts `V[r]` at `I + r`, for `r` up to `x` (44_index_memory.md R194). -/
theorem read_writeSpan_regSpan (m : Memory) (base : Nat) (s : State) {x r : Reg} (hr : r ≤ x) :
    (m.writeSpan base (regSpan s x)).read (base + r.val) = s.getV r := by
  have hlen : r.val < (regSpan s x).length := by
    rw [length_regSpan]
    exact Nat.lt_succ_of_le hr
  rw [Memory.read_writeSpan_inside _ _ _ _ hlen, getElem_regSpan]

/-- Settles O53: the fetch reads the two bytes at `PC` and `PC + 1`, and the store put `V[a]` and `V[b]`
there. -/
theorem storedBytesAreFetched : Obligations.StoredBytesAreFetched := by
  intro x a b s t p hstore hbx hba hp
  obtain ⟨hin, rfl⟩ := (exec_store_eq_next_iff x s t).mp hstore
  have hb : b.val ≤ x.val := hbx
  have hax : a ≤ x := Fin.le_def.mpr (by omega)
  refine ⟨_, (fetch_ok_iff _ _).mpr ⟨?_, rfl⟩, ?_⟩
  · change p.toNat + 1 < Config.memSize
    omega
  · have hnext : s.i.toNat + a.val + 1 = s.i.toNat + b.val := by omega
    simp only [toNat_wordAtPc, State.setMem_mem, hp, hnext, read_writeSpan_regSpan _ _ _ hax,
      read_writeSpan_regSpan _ _ _ hbx]

end Sys2Proof.Machine
end

section
/-!
SUPPORT. The decoder, the encoder and the opcode table of spec/30_encoding.md. `decode_fits` says once what
decoding can answer; the table and the invalid words are read off from it and from the operations' rows.
-/

namespace Sys2Proof

/-! ### A word is packed from its fields (30_encoding.md R71, R72) -/

theorem packA_fields (w : Word) : packA (fieldOp w).val (fieldNnn w) = w := by
  have := w.isLt
  apply BitVec.eq_of_toNat_eq
  rw [toNat_packA _ _ (fieldOp w).isLt]
  simp only [fieldOp, fieldNnn, bits, Fin.val_ofNat, BitVec.toNat_ofNat]
  omega

theorem packXYN_fields (w : Word) : packXYN (fieldOp w).val (fieldX w) (fieldY w) (fieldN w) = w :=
  BitVec.eq_of_toNat_eq <| by rw [toNat_packXYN _ _ _ _ (fieldOp w).isLt, ← toNat_eq_nibbles]

theorem packXK_fields (w : Word) : packXK (fieldOp w).val (fieldX w) (fieldKk w) = w :=
  BitVec.eq_of_toNat_eq <| by
    rw [toNat_packXK _ _ _ (fieldOp w).isLt, toNat_fieldKk, ← Nat.add_assoc, ← toNat_eq_nibbles]

/-- Packing with `y = 0` clears the `y` bits (R79, R81). -/
theorem packXYN_fields_without_y (w : Word) :
    packXYN (fieldOp w).val (fieldX w) 0 (fieldN w) = w &&& 0xFF0F#16 := by
  apply BitVec.eq_of_toNat_eq
  rw [toNat_packXYN _ _ _ _ (fieldOp w).isLt]
  simpa [and_15] using (toNat_and_mask w 15 15 0 15).symm

/-! ### Words that agree under a mask have the fields it covers (30_encoding.md R71, R76) -/

theorem fieldOp_eq_of_and {w v : Word} (h : w &&& 0xF000#16 = v &&& 0xF000#16) : fieldOp w = fieldOp v := by
  have h' := congrArg BitVec.toNat h
  simp only [toNat_and_F000] at h'
  omega

theorem fieldN_eq_of_and {w v : Word} (h : w &&& 0xF00F#16 = v &&& 0xF00F#16) : fieldN w = fieldN v := by
  have h' := congrArg BitVec.toNat h
  simp only [toNat_and_F00F] at h'
  omega

theorem fieldKk_eq_of_and {w v : Word} (h : w &&& 0xF0FF#16 = v &&& 0xF0FF#16) :
    fieldKk w = fieldKk v := by
  have h' := congrArg BitVec.toNat h
  simp only [toNat_and_F0FF] at h'
  apply BitVec.eq_of_toNat_eq
  omega

/-! ### Decoding an encoded operation (30_encoding.md R76, R77) -/

theorem fieldOp_packA_eq {op : Nat} (h : op < 16) (nnn : Addr12) : fieldOp (packA op nnn) = ⟨op, h⟩ :=
  Fin.ext (fieldOp_packA op nnn h)

theorem fieldOp_packXK_eq {op : Nat} (h : op < 16) (x : Reg) (kk : Byte) :
    fieldOp (packXK op x kk) = ⟨op, h⟩ :=
  Fin.ext (fieldOp_packXK op x kk h)

theorem fieldOp_packXYN_eq {op : Nat} (h : op < 16) (x y : Reg) (n : Fin 16) :
    fieldOp (packXYN op x y n) = ⟨op, h⟩ :=
  Fin.ext (fieldOp_packXYN op x y n h)

theorem packA_ne {op : Nat} {nnn : Addr12} {w : Word} (h : op < 16) (hne : nnn ≠ fieldNnn w) :
    packA op nnn ≠ w := fun e =>
  hne (by rw [← e, fieldNnn_packA op nnn h])

/-- Settles O1: the decoder reads back the operands each format packs, and selects the operation by the
function bits the format fixes. -/
theorem decodeOfEncodeIsIdentity : Obligations.DecodeOfEncodeIsIdentity := by
  intro i hwf
  cases i with
  | cls | ret => decide
  | sys nnn =>
    obtain ⟨hcls, hret⟩ : nnn ≠ 0x0E0#12 ∧ nnn ≠ 0x0EE#12 := by simpa [Instr.wellFormed] using hwf
    have hcls' : packA 0 nnn ≠ 0x00E0#16 := packA_ne (by decide) hcls
    have hret' : packA 0 nnn ≠ 0x00EE#16 := packA_ne (by decide) hret
    simp [encode, decode, decodeFamily0, fieldOp_packA_eq, fieldNnn_packA, hcls', hret']
  | jp | call | ldI | jpV0 => simp [encode, decode, fieldOp_packA_eq, fieldNnn_packA]
  | seImm | sneImm | ldImm | addImm | rnd =>
    simp [encode, decode, fieldOp_packXK_eq, fieldX_packXK, fieldKk_packXK]
  | seReg | sneReg | drw =>
    simp [encode, decode, fieldOp_packXYN_eq, fieldX_packXYN, fieldY_packXYN, fieldN_packXYN]
  | ldReg | orReg | andReg | xorReg | addReg | sub | subn | shr | shl =>
    simp [encode, decode, decodeFamily8, fieldOp_packXYN_eq, fieldX_packXYN, fieldY_packXYN, fieldN_packXYN]
  | skp | sknp => simp [encode, decode, decodeFamilyE, fieldOp_packXK_eq, fieldX_packXK, fieldKk_packXK]
  | ldVxDt | ldVxK | ldDtVx | ldStVx | addI | ldF | ldB | store | load =>
    simp [encode, decode, decodeFamilyF, fieldOp_packXK_eq, fieldX_packXK, fieldKk_packXK]

/-! ### What decoding can answer (30_encoding.md R77 to R79) -/

/-- The words R78 lists as invalid. -/
def ListedInvalid (w : Word) : Prop :=
  (fieldOp w = 0x5 ∧ fieldN w ≠ 0x0) ∨
  (fieldOp w = 0x8 ∧ fieldN w ∈ ([0x8, 0x9, 0xA, 0xB, 0xC, 0xD, 0xF] : List (Fin 16))) ∨
  (fieldOp w = 0x9 ∧ fieldN w ≠ 0x0) ∨
  (fieldOp w = 0xE ∧ fieldKk w ∉ ([0x9E, 0xA1] : List Byte)) ∨
  (fieldOp w = 0xF ∧
    fieldKk w ∉ ([0x07, 0x0A, 0x15, 0x18, 0x1E, 0x29, 0x33, 0x55, 0x65] : List Byte))

/-- The operation assembles to the word, the `y` bits of SHR and SHL apart (R79, R81). -/
def AssemblesTo (i : Instr) (w : Word) : Prop :=
  encode i = w ∨ ((∃ x, i = .shr x ∨ i = .shl x) ∧ encode i = (w &&& 0xFF0F#16))

/-- The outcome is one the word may decode to: a well-formed operation that assembles to it, or the word
itself where R78 lists it as invalid. -/
def Decoded.Fits (w : Word) : Decoded → Prop
  | .op i => i.wellFormed = true ∧ AssemblesTo i w
  | .invalid u => u = w ∧ ListedInvalid w

section Fits
variable {w : Word} {i : Instr} {op n : Fin 16} {kk : Byte}

theorem fits_of_packA (hop : fieldOp w = op) (hwf : i.wellFormed = true)
    (he : encode i = packA op.val (fieldNnn w)) : (Decoded.op i).Fits w := by
  subst hop
  exact ⟨hwf, .inl (he.trans (packA_fields w))⟩

theorem fits_of_packXK (hop : fieldOp w = op) (hkk : fieldKk w = kk) (hwf : i.wellFormed = true)
    (he : encode i = packXK op.val (fieldX w) kk) : (Decoded.op i).Fits w := by
  subst hop hkk
  exact ⟨hwf, .inl (he.trans (packXK_fields w))⟩

theorem fits_of_packXYN (hop : fieldOp w = op) (hn : fieldN w = n) (hwf : i.wellFormed = true)
    (he : encode i = packXYN op.val (fieldX w) (fieldY w) n) : (Decoded.op i).Fits w := by
  subst hop hn
  exact ⟨hwf, .inl (he.trans (packXYN_fields w))⟩

theorem fits_of_shift (hop : fieldOp w = op) (hn : fieldN w = n) (hwf : i.wellFormed = true)
    (hi : ∃ x, i = .shr x ∨ i = .shl x) (he : encode i = packXYN op.val (fieldX w) 0 n) :
    (Decoded.op i).Fits w := by
  subst hop hn
  exact ⟨hwf, .inr ⟨hi, he.trans (packXYN_fields_without_y w)⟩⟩

theorem decodeFamily0_fits (hop : fieldOp w = 0x0) : (decodeFamily0 w).Fits w := by
  unfold decodeFamily0
  split_ifs with hcls hret
  · exact ⟨rfl, .inl hcls.symm⟩
  · exact ⟨rfl, .inl hret.symm⟩
  · have hw : packA 0 (fieldNnn w) = w := by simpa [hop] using packA_fields w
    refine fits_of_packA hop ?_ rfl
    have hcls' : fieldNnn w ≠ 0x0E0#12 := fun e => hcls (by rw [← hw, e]; rfl)
    have hret' : fieldNnn w ≠ 0x0EE#12 := fun e => hret (by rw [← hw, e]; rfl)
    simp [Instr.wellFormed, hcls', hret']

/-- The arms `h_7`, `h_9` and `h_10` are the low nibbles 6 (SHR), 0xE (SHL) and those without an operation. -/
theorem decodeFamily8_fits (hop : fieldOp w = 0x8) : (decodeFamily8 w).Fits w := by
  simp only [decodeFamily8]
  split
  case h_7 hn => exact fits_of_shift hop hn rfl ⟨_, .inl rfl⟩ rfl
  case h_9 hn => exact fits_of_shift hop hn rfl ⟨_, .inr rfl⟩ rfl
  case h_10 =>
    refine ⟨rfl, .inr (.inl ⟨hop, ?_⟩)⟩
    simp only [List.mem_cons, List.not_mem_nil]
    grind
  all_goals next hn => exact fits_of_packXYN hop hn rfl rfl

theorem decodeFamilyE_fits (hop : fieldOp w = 0xE) : (decodeFamilyE w).Fits w := by
  unfold decodeFamilyE
  split_ifs with hskp hsknp
  · exact fits_of_packXK hop hskp rfl rfl
  · exact fits_of_packXK hop hsknp rfl rfl
  · exact ⟨rfl, .inr (.inr (.inr (.inl ⟨hop, by simp [hskp, hsknp]⟩)))⟩

theorem decodeFamilyF_fits (hop : fieldOp w = 0xF) : (decodeFamilyF w).Fits w := by
  simp only [decodeFamilyF]
  split_ifs
  case neg => exact ⟨rfl, .inr (.inr (.inr (.inr ⟨hop, by simp [*]⟩)))⟩
  all_goals exact fits_of_packXK hop ‹_› rfl rfl

/-- What decoding can answer, from the families of R77. The arms `h_1` to `h_16` are the top nibbles 0x0 to
0xF. -/
theorem decode_fits (w : Word) : (decode w).Fits w := by
  simp only [decode]
  split
  case h_1 hop => exact decodeFamily0_fits hop
  case h_9 hop => exact decodeFamily8_fits hop
  case h_15 hop => exact decodeFamilyE_fits hop
  case h_16 =>
    refine decodeFamilyF_fits ?_
    grind
  case h_6 hop =>
    split_ifs with hn
    · exact fits_of_packXYN hop hn rfl rfl
    · exact ⟨rfl, .inl ⟨hop, hn⟩⟩
  case h_10 hop =>
    split_ifs with hn
    · exact fits_of_packXYN hop hn rfl rfl
    · exact ⟨rfl, .inr (.inr (.inl ⟨hop, hn⟩))⟩
  case h_14 hop => exact fits_of_packXYN hop rfl rfl rfl
  case h_2 hop | h_3 hop | h_11 hop | h_12 hop => exact fits_of_packA hop rfl rfl
  case h_4 hop | h_5 hop | h_7 hop | h_8 hop | h_13 hop => exact fits_of_packXK hop rfl rfl rfl

end Fits

/-- Settles O2: the word's own fields go back where they were read, but for the `y` bits of a shift. -/
theorem encodeOfDecodeRestoresWord : Obligations.EncodeOfDecodeRestoresWord := by
  intro w i hi
  have h := decode_fits w
  rwa [hi] at h

/-! ### The opcode table (30_encoding.md R75, R76) -/

theorem row_eq_of_number_eq : ∀ r ∈ opcodeTable, ∀ r' ∈ opcodeTable, r.number = r'.number → r = r' := by
  decide

/-- The patterns of two rows agree under both masks only where one of them is an exact word the other leaves
out. -/
theorem row_eq_of_patterns_compatible : ∀ r ∈ opcodeTable, ∀ r' ∈ opcodeTable,
    r.pattern &&& r'.mask = r'.pattern &&& r.mask →
      r = r' ∨ (r'.mask = BitVec.allOnes 16 ∧ r'.pattern ∈ r.excluded) ∨
        (r.mask = BitVec.allOnes 16 ∧ r.pattern ∈ r'.excluded) := by
  decide

theorem accepts_iff (r : OpcodeRow) (w : Word) :
    r.accepts w = true ↔ w &&& r.mask = r.pattern ∧ w ∉ r.excluded := by
  simp [OpcodeRow.accepts]

/-- No word lies in two rows. -/
theorem row_eq_of_accepts {r r' : OpcodeRow} {w : Word} (hr : r ∈ opcodeTable) (hr' : r' ∈ opcodeTable)
    (h : r.accepts w = true) (h' : r'.accepts w = true) : r = r' := by
  obtain ⟨hp, hx⟩ := (accepts_iff r w).mp h
  obtain ⟨hp', hx'⟩ := (accepts_iff r' w).mp h'
  have hcompat : r.pattern &&& r'.mask = r'.pattern &&& r.mask := by
    rw [← hp, ← hp', BitVec.and_assoc, BitVec.and_assoc, BitVec.and_comm r.mask]
  obtain e | ⟨hm, he⟩ | ⟨hm, he⟩ := row_eq_of_patterns_compatible r hr r' hr' hcompat
  · exact e
  · rw [hm, BitVec.and_allOnes] at hp'
    exact absurd (hp' ▸ he) hx
  · rw [hm, BitVec.and_allOnes] at hp
    exact absurd (hp ▸ he) hx'

/-- Every operation's word lies in the operation's row: the laws of `InItsRow` together. -/
theorem inItsRow (i : Instr) : Laws.InItsRow.Statement i :=
  open Laws.InItsRow in
  i.casesOn sys cls ret jp call seImm sneImm seReg ldImm addImm ldReg orReg andReg xorReg addReg sub shr
    subn shl sneReg ldI jpV0 rnd drw skp sknp ldVxDt ldVxK ldDtVx ldStVx addI ldF ldB store load

/-- The rows of SHR and SHL do not look at the `y` bits. -/
theorem shift_row_ignores_y : ∀ r ∈ opcodeTable, r.number = 17 ∨ r.number = 19 →
    r.mask = 0xFF0F#16 &&& r.mask ∧ r.excluded = [] := by
  decide

/-- A word lies in the row of the operation it decodes to. -/
theorem row_of_decode {w : Word} {i : Instr} (h : decode w = .op i) :
    ∃ r ∈ opcodeTable, r.number = i.rowNumber ∧ r.accepts w = true := by
  obtain ⟨hwf, hw⟩ := encodeOfDecodeRestoresWord w i h
  obtain ⟨r, hr, hnum, hacc⟩ := inItsRow i hwf
  refine ⟨r, hr, hnum, ?_⟩
  obtain rfl | ⟨⟨x, hi⟩, hw⟩ := hw
  · exact hacc
  · have hshift : r.number = 17 ∨ r.number = 19 := by
      obtain rfl | rfl := hi
      · exact .inl hnum
      · exact .inr hnum
    obtain ⟨hmask, hnone⟩ := shift_row_ignores_y r hr hshift
    rw [accepts_iff, hw, BitVec.and_assoc, ← hmask] at hacc
    rw [accepts_iff, hnone]
    exact ⟨hacc.1, by simp⟩

theorem and_eq_pattern_and {r : OpcodeRow} {w k : Word} (h : r.accepts w = true) (hk : r.mask &&& k = k) :
    w &&& k = r.pattern &&& k := by
  obtain ⟨hp, -⟩ := (accepts_iff r w).mp h
  rw [← hp, BitVec.and_assoc, hk]

/-- Every row fixes the top nibble. -/
theorem mask_and_F000 : ∀ r ∈ opcodeTable, r.mask &&& 0xF000#16 = 0xF000#16 := by decide

/-- The rows of families 5, 8 and 9 fix the low nibble (R74, R76). -/
theorem mask_and_F00F : ∀ r ∈ opcodeTable, fieldOp r.pattern ∈ ([0x5, 0x8, 0x9] : List (Fin 16)) →
    r.mask &&& 0xF00F#16 = 0xF00F#16 := by decide

/-- The rows of families E and F fix the low byte (R74, R76). -/
theorem mask_and_F0FF : ∀ r ∈ opcodeTable, fieldOp r.pattern ∈ ([0xE, 0xF] : List (Fin 16)) →
    r.mask &&& 0xF0FF#16 = 0xF0FF#16 := by decide

theorem pattern_not_listedInvalid : ∀ r ∈ opcodeTable, ¬ ListedInvalid r.pattern := by
  unfold ListedInvalid
  decide

/-- No word of a row is listed as invalid, since a row fixes all that the list looks at. -/
theorem not_listedInvalid_of_accepts {r : OpcodeRow} {w : Word} (hr : r ∈ opcodeTable)
    (h : r.accepts w = true) : ¬ ListedInvalid w := by
  have hop : fieldOp w = fieldOp r.pattern := fieldOp_eq_of_and (and_eq_pattern_and h (mask_and_F000 r hr))
  have hn (hfam) : fieldN w = fieldN r.pattern :=
    fieldN_eq_of_and (and_eq_pattern_and h (mask_and_F00F r hr hfam))
  have hkk (hfam) : fieldKk w = fieldKk r.pattern :=
    fieldKk_eq_of_and (and_eq_pattern_and h (mask_and_F0FF r hr hfam))
  refine fun hlisted => pattern_not_listedInvalid r hr ?_
  unfold ListedInvalid at hlisted ⊢
  rw [hop] at hlisted
  obtain ⟨hfam, hsel⟩ | ⟨hfam, hsel⟩ | ⟨hfam, hsel⟩ | ⟨hfam, hsel⟩ | ⟨hfam, hsel⟩ := hlisted
  · exact .inl ⟨hfam, hn (by simp [hfam]) ▸ hsel⟩
  · exact .inr (.inl ⟨hfam, hn (by simp [hfam]) ▸ hsel⟩)
  · exact .inr (.inr (.inl ⟨hfam, hn (by simp [hfam]) ▸ hsel⟩))
  · exact .inr (.inr (.inr (.inl ⟨hfam, hkk (by simp [hfam]) ▸ hsel⟩)))
  · exact .inr (.inr (.inr (.inr ⟨hfam, hkk (by simp [hfam]) ▸ hsel⟩)))

theorem eq_and_listedInvalid_of_decode {w u : Word} (h : decode w = .invalid u) :
    u = w ∧ ListedInvalid w := by
  have hfits := decode_fits w
  rwa [h] at hfits

/-- A word is invalid exactly where R78 lists it. -/
theorem decode_eq_invalid_iff (w : Word) : decode w = .invalid w ↔ ListedInvalid w := by
  refine ⟨fun h => (eq_and_listedInvalid_of_decode h).2, fun hlisted => ?_⟩
  cases h : decode w with
  | invalid u => rw [(eq_and_listedInvalid_of_decode h).1]
  | op i =>
    obtain ⟨r, hr, -, hacc⟩ := row_of_decode h
    exact absurd hlisted (not_listedInvalid_of_accepts hr hacc)

/-- Settles O3: a word of a row is not invalid, so it decodes to an operation, whose row is that row because
rows do not overlap; and a word lies in the row of the operation it decodes to. -/
theorem opcodeTableAgreesWithDecoder : Obligations.OpcodeTableAgreesWithDecoder := by
  refine ⟨by decide, fun r hr w => ⟨fun h => ?_, ?_⟩⟩
  · cases hd : decode w with
    | invalid u =>
      exact absurd (eq_and_listedInvalid_of_decode hd).2 (not_listedInvalid_of_accepts hr h)
    | op i =>
      obtain ⟨r', hr', hnum, hacc⟩ := row_of_decode hd
      obtain rfl := row_eq_of_accepts hr hr' h hacc
      exact ⟨i, rfl, hnum.symm⟩
  · rintro ⟨i, hi, hnum⟩
    obtain ⟨r', hr', hnum', hacc⟩ := row_of_decode hi
    obtain rfl := row_eq_of_number_eq r hr r' hr' (hnum.symm.trans hnum'.symm)
    exact hacc

/-! ### How many words are invalid (30_encoding.md R79) -/

/-- The number of invalid words with the top nibble `op`. -/
def invalidCount (op : Nat) : Nat :=
  ((List.range 4096).filter fun l =>
    decide (decode (BitVec.ofNat 16 (op * 4096 + l)) = .invalid (BitVec.ofNat 16 (op * 4096 + l)))).length

/-- Of the numbers below `k`, all but the listed ones are not listed. -/
theorem count_notMem {k : Nat} {L : List Nat} (hnodup : L.Nodup) (hlt : ∀ a ∈ L, a < k) :
    Nat.count (· ∉ L) k = k - L.length := by
  have hsub : L.toFinset ⊆ Finset.range k := fun a ha => by
    simpa using hlt a (List.mem_toFinset.mp ha)
  have hfilter : (Finset.range k).filter (· ∉ L) = Finset.range k \ L.toFinset := by
    ext a
    simp
  rw [Nat.count_eq_card_filter_range, hfilter, Finset.card_sdiff_of_subset hsub, Finset.card_range,
    List.toFinset_card_of_nodup hnodup]

/-- A condition on the remainder by `k` holds equally often in each of the `m` blocks of `k` numbers. -/
theorem count_mod (P : Nat → Prop) [DecidablePred P] (k m : Nat) :
    Nat.count (fun l => P (l % k)) (k * m) = m * Nat.count P k := by
  induction m with
  | zero => simp
  | succ m ih =>
    have hblock : Nat.count (fun l => P ((k * m + l) % k)) k = Nat.count P k := by
      unfold Nat.count
      refine List.countP_congr fun l hl => ?_
      simp [Nat.mod_eq_of_lt (List.mem_range.mp hl)]
    rw [Nat.mul_succ, Nat.count_add, ih, hblock, Nat.succ_mul]

theorem toNat_ofNat_word {op l : Nat} (hop : op < 16) (hl : l < 4096) :
    (BitVec.ofNat 16 (op * 4096 + l)).toNat = op * 4096 + l := by
  rw [BitVec.toNat_ofNat]
  omega

theorem fieldOp_ofNat_word {op l : Nat} (hop : op < 16) (hl : l < 4096) :
    fieldOp (BitVec.ofNat 16 (op * 4096 + l)) = ⟨op, hop⟩ := by
  apply Fin.ext
  simp only [fieldOp, bits, toNat_ofNat_word hop hl, Fin.val_ofNat]
  omega

/-- A family whose words are valid for the listed values of their last bits, and for no others. -/
theorem invalidCount_of_selector {op k m : Nat} {L : List Nat} (hop : op < 16) (hkm : k * m = 4096)
    (hnodup : L.Nodup) (hlt : ∀ a ∈ L, a < k)
    (h : ∀ w, fieldOp w = ⟨op, hop⟩ → (ListedInvalid w ↔ w.toNat % k ∉ L)) :
    invalidCount op = m * (k - L.length) := by
  rw [← count_notMem hnodup hlt, ← count_mod, hkm]
  unfold invalidCount Nat.count
  rw [← List.countP_eq_length_filter]
  refine List.countP_congr fun l hl => ?_
  have hl : l < 4096 := List.mem_range.mp hl
  have hmod : (op * 4096 + l) % k = l % k := by
    rw [← hkm, Nat.mul_left_comm, Nat.mul_add_mod]
  simp only [decide_eq_true_eq, decode_eq_invalid_iff, h _ (fieldOp_ofNat_word hop hl),
    toNat_ofNat_word hop hl, hmod]

theorem family_of_listedInvalid {w : Word} (h : ListedInvalid w) :
    fieldOp w ∈ ([0x5, 0x8, 0x9, 0xE, 0xF] : List (Fin 16)) := by
  obtain ⟨h, -⟩ | ⟨h, -⟩ | ⟨h, -⟩ | ⟨h, -⟩ | ⟨h, -⟩ := h
  all_goals simp [h]

/-- The families without a selector hold no invalid word. -/
theorem invalidCount_eq_zero {op : Nat} (hop : op < 16)
    (hfam : ⟨op, hop⟩ ∉ ([0x5, 0x8, 0x9, 0xE, 0xF] : List (Fin 16))) : invalidCount op = 0 := by
  unfold invalidCount
  rw [List.length_eq_zero_iff, List.filter_eq_nil_iff]
  intro l hl
  rw [decide_eq_true_eq, decode_eq_invalid_iff]
  refine fun hlisted => hfam ?_
  rw [← fieldOp_ofNat_word hop (List.mem_range.mp hl)]
  exact family_of_listedInvalid hlisted

theorem val_fieldN (w : Word) : (fieldN w).val = w.toNat % 16 := by
  simp [fieldN, bits]

theorem toNat_fieldKk_eq_mod (w : Word) : (fieldKk w).toNat = w.toNat % 256 := by
  simp [fieldKk, bits]

theorem invalidCount_of_fieldN {op : Nat} (hop : op < 16) (L : List (Fin 16)) (hnodup : L.Nodup)
    (h : ∀ w, fieldOp w = ⟨op, hop⟩ → (ListedInvalid w ↔ fieldN w ∉ L)) :
    invalidCount op = 256 * (16 - L.length) := by
  have hlt : ∀ a ∈ L.map Fin.val, a < 16 := by simp
  rw [← List.length_map (as := L) Fin.val]
  refine invalidCount_of_selector hop rfl (hnodup.map Fin.val_injective) hlt fun w hw => ?_
  rw [h w hw, ← val_fieldN, List.mem_map_of_injective Fin.val_injective]

theorem invalidCount_of_fieldKk {op : Nat} (hop : op < 16) (L : List Byte) (hnodup : L.Nodup)
    (h : ∀ w, fieldOp w = ⟨op, hop⟩ → (ListedInvalid w ↔ fieldKk w ∉ L)) :
    invalidCount op = 16 * (256 - L.length) := by
  have hlt : ∀ a ∈ L.map BitVec.toNat, a < 256 := by
    simpa using fun kk (_ : kk ∈ L) => kk.isLt
  rw [← List.length_map (as := L) BitVec.toNat]
  refine invalidCount_of_selector hop rfl (hnodup.map BitVec.toNat_injective) hlt fun w hw => ?_
  rw [h w hw, ← toNat_fieldKk_eq_mod, List.mem_map_of_injective BitVec.toNat_injective]

theorem invalidCount_5 : invalidCount 0x5 = 3840 :=
  invalidCount_of_fieldN (by decide) [0x0] (by decide) fun w hop => by simp [ListedInvalid, hop]

theorem invalidCount_8 : invalidCount 0x8 = 1792 :=
  invalidCount_of_fieldN (by decide) [0x0, 0x1, 0x2, 0x3, 0x4, 0x5, 0x6, 0x7, 0xE] (by decide) fun w hop => by
    have hcompl : ∀ n : Fin 16, n ∈ ([0x8, 0x9, 0xA, 0xB, 0xC, 0xD, 0xF] : List (Fin 16)) ↔
        n ∉ ([0x0, 0x1, 0x2, 0x3, 0x4, 0x5, 0x6, 0x7, 0xE] : List (Fin 16)) := by decide
    rw [← hcompl]
    simp [ListedInvalid, hop]

theorem invalidCount_9 : invalidCount 0x9 = 3840 :=
  invalidCount_of_fieldN (by decide) [0x0] (by decide) fun w hop => by simp [ListedInvalid, hop]

theorem invalidCount_E : invalidCount 0xE = 4064 :=
  invalidCount_of_fieldKk (by decide) [0x9E, 0xA1] (by decide) fun w hop => by simp [ListedInvalid, hop]

theorem invalidCount_F : invalidCount 0xF = 3952 :=
  invalidCount_of_fieldKk (by decide) [0x07, 0x0A, 0x15, 0x18, 0x1E, 0x29, 0x33, 0x55, 0x65] (by decide)
    fun w hop => by simp [ListedInvalid, hop]

theorem sum_invalidCount : ((List.range 16).map invalidCount).sum = 17488 := by
  simp [List.range_succ, invalidCount_5, invalidCount_8, invalidCount_9, invalidCount_E, invalidCount_F,
    invalidCount_eq_zero]

/-- Settles O4: the outcomes are those `decode_fits` allows, and the counts are those of the families. -/
theorem invalidWordsAreExactlyTheListed : Obligations.InvalidWordsAreExactlyTheListed := by
  refine ⟨fun w u h => (eq_and_listedInvalid_of_decode h).1, decode_eq_invalid_iff, ?_⟩
  have hsum := sum_invalidCount
  unfold invalidCount at hsum
  refine ⟨invalidCount_5, invalidCount_8, invalidCount_9, invalidCount_E, invalidCount_F, hsum, ?_⟩
  rw [hsum]

/-- Settles O5, by running the decoder on the 26 words. -/
theorem sampleWordsDecode : Obligations.SampleWordsDecode := by
  unfold Obligations.SampleWordsDecode
  decide

end Sys2Proof
end

section
/-!
SUPPORT. The rules of spec/40_control_flow.md: the step around an operation and around an invalid word (R100,
R110), the transfers (R102 to R105), the skips (R106 to R109), and where `PC` is after a step (R111).
-/

namespace Sys2Proof.Machine

/-! ### The step (R100, R110; 20_memory.md R55) -/

/-- Where both bytes are in range, the word with the big-endian number of the two is the one fetched. -/
theorem fetch_of_toNat_eq {s : State} {w : Word} (hpc : s.pc.toNat + 1 < Config.memSize)
    (hw : w.toNat = (s.mem.read s.pc.toNat).toNat * 256 + (s.mem.read (s.pc.toNat + 1)).toNat) :
    fetch s = .ok w :=
  (fetch_ok_iff s w).mpr ⟨hpc, BitVec.eq_of_toNat_eq (hw.trans (toNat_wordAtPc s).symm)⟩

/-- Settles O6: the two bytes are the fetched word, so the step runs its operation after the pre-advance. -/
theorem stepRunsDecodedInstruction : Obligations.StepRunsDecodedInstruction := by
  intro s w i hpc hw hd
  exact ⟨step_of_fetchesOp ⟨w, fetch_of_toNat_eq hpc hw, hd⟩, advance_pc_toNat hpc⟩

/-- The `step` port leaves an invalid word behind it, as it does a faulting operation (D15). -/
theorem stepPort_of_invalid {s : State} {w u : Word} (hf : fetch s = .ok w) (hd : decode w = .invalid u) :
    stepPort s = (.fault (.invalidOpcode u), s.advance) := by
  simp only [stepPort, replyToStep, step_of_invalid hf hd, afterFault, hf]

/-- Settles O8: the two bytes are the fetched word, which is the one the fault carries. -/
theorem invalidWordFaults : Obligations.InvalidWordFaults := by
  intro s w hpc hw hd
  have hf := fetch_of_toNat_eq hpc hw
  exact ⟨step_of_invalid hf hd, stepPort_of_invalid hf hd⟩

/-! ### Jumps (R102, R105) -/

/-- Settles O21: the jump is one write of `PC`. -/
theorem jpSetsPc : Obligations.JpSetsPc := by
  intro nnn s
  exact ⟨s.setPc (zextAddr nnn), rfl, toNat_zextAddr nnn, frame_setPc {} s _⟩

/-- Settles O22: 12 bits and 8 bits add up to at most 0x0FFF + 0xFF. -/
theorem jpV0AddsRegisterZero : Obligations.JpV0AddsRegisterZero := by
  intro nnn s
  have htarget := toNat_indexedTarget nnn (s.getV 0)
  refine ⟨s.setPc (zextAddr nnn + zextByte (s.getV 0)), rfl, htarget, ?_, frame_setPc {} s _⟩
  have := nnn.isLt
  have := (s.getV 0).isLt
  rw [State.setPc_pc, htarget]
  omega

/-! ### The call stack (R103, R104) -/

/-- `RET` goes on exactly where the stack is not empty, with the top entry in `PC`. -/
theorem exec_ret_eq_next_iff (s t : State) :
    exec .ret s = .next t ↔ ∃ _ : 0 < s.sp.val,
      t = { s with sp := ⟨s.sp.val - 1, by omega⟩, pc := s.stack[s.sp.val - 1] } := by
  obtain ⟨hsp, e⟩ | ⟨hsp, e⟩ := pop_cases s
  · simp only [exec_ret_of_pop e, Host.Outcome.next.injEq, hsp, exists_true_left, eq_comm, State.setPc]
  · simp only [exec_ret_of_pop_error e, reduceCtorEq, hsp, Nat.lt_irrefl, IsEmpty.exists_iff]

/-- `CALL` goes on exactly where the stack is not full, with `PC` pushed and the target in its place. -/
theorem exec_call_eq_next_iff (nnn : Addr12) (s t : State) :
    exec (.call nnn) s = .next t ↔ ∃ _ : s.sp.val < 16,
      t = { s with stack := s.stack.set s.sp.val s.pc, sp := ⟨s.sp.val + 1, by omega⟩,
                   pc := zextAddr nnn } := by
  obtain ⟨hsp, e⟩ | ⟨hsp, e⟩ := push_cases s s.pc
  · simp only [exec_call_of_push e, Host.Outcome.next.injEq, hsp, exists_true_left, eq_comm, State.setPc]
  · simp only [exec_call_of_push_error e, reduceCtorEq, hsp, Nat.lt_irrefl, IsEmpty.exists_iff]

/-- The entry below `SP` is the one whose number plus 1 is `SP`. -/
theorem stack_top_eq {s : State} {j : Fin 16} (hj : j.val + 1 = s.sp.val) :
    s.stack[s.sp.val - 1] = s.stack[j.val] := by
  simp only [← hj, Nat.add_sub_cancel]

/-- Settles O23, from the two ways a pop ends. -/
theorem retPopsOrUnderflows : Obligations.RetPopsOrUnderflows := by
  intro s
  refine ⟨fun hsp => ?_, fun hsp => exec_ret_of_pop_error (pop_empty (Fin.ext hsp))⟩
  exact ⟨_, (exec_ret_eq_next_iff s _).mpr ⟨hsp, rfl⟩, Nat.sub_add_cancel hsp, rfl,
    fun j hj => stack_top_eq hj, frame_stack s _ _ _⟩

/-- A `CALL` on a full stack overflows. -/
theorem exec_call_of_full (nnn : Addr12) {s : State} (hsp : s.sp.val = 16) :
    exec (.call nnn) s = .fault .stackOverflow :=
  exec_call_of_push_error (push_full (Fin.ext hsp) s.pc)

/-- Settles O24, from the two ways a push ends; the pre-advance does not touch `SP`. -/
theorem callPushesOrOverflows : Obligations.CallPushesOrOverflows := by
  intro nnn s
  refine ⟨fun hsp => ?_, exec_call_of_full nnn,
    fun hsp hf => stepPort_of_exec_fault hf (exec_call_of_full nnn (s := s.advance) hsp)⟩
  refine ⟨_, (exec_call_eq_next_iff nnn s _).mpr ⟨hsp, rfl⟩, rfl, fun j => ?_, toNat_zextAddr nnn,
    frame_stack s _ _ _⟩
  simp only [Vector.getElem_set, eq_comm]

/-- Settles O25: the entry on top of the stack the `CALL` left is the one it pushed. -/
theorem retReturnsBehindTheCall : Obligations.RetReturnsBehindTheCall := by
  intro nnn s t u hcall hsp hstack
  obtain ⟨hfree, rfl⟩ := (exec_call_eq_next_iff nnn s t).mp hcall
  have hdepth : u.sp.val = s.sp.val + 1 := congrArg Fin.val hsp
  obtain ⟨hpop, -⟩ := retPopsOrUnderflows u
  obtain ⟨r, hret, hrsp, -, htop, -⟩ := hpop (by omega)
  refine ⟨r, hret, ?_, Fin.ext (by omega)⟩
  rw [htop ⟨s.sp.val, hfree⟩ hdepth.symm]
  simp only [hstack, Vector.getElem_set_self]

/-! ### Skips (R106 to R109; 43_input_timers.md R175, R176) -/

/-- Settles O26: each skip is `skipIf` of its condition. -/
theorem skipsTestTheirCondition : Obligations.SkipsTestTheirCondition := by
  intro x y kk s
  have skip_beq (b : Byte) :
      skipIf (s.getV x == b) s = .next (if s.getV x = b then s.advance else s) := by
    simp only [skipIf, beq_iff_eq]
  have skip_bne (b : Byte) :
      skipIf (s.getV x != b) s = .next (if s.getV x = b then s else s.advance) := by
    simp only [skipIf, bne_iff_ne, ne_eq, ite_not]
  exact ⟨skip_beq kk, skip_bne kk, skip_beq (s.getV y), skip_bne (s.getV y)⟩

/-- A key skip goes on exactly where the register names a key, as a skip on that key. -/
theorem skipOnKey_eq_next_iff (pressed : Bool) (x : Reg) (s t : State) :
    skipOnKey pressed x s = .next t ↔
      ∃ k : Key, k.val = (s.getV x).toNat ∧ skipIf (s.key k == pressed) s = .next t := by
  simp only [← keyIndex_eq_some, skipOnKey]
  cases keyIndex (s.getV x) with
  | none => simp [raise]
  | some k => simp

/-! ### The key wait (43_input_timers.md R177) -/

theorem exec_ldVxK_of_none {x : Reg} {s : State} (h : leastPressed s = none) :
    exec (.ldVxK x) s = .next s.rewind := by
  simp only [exec, execLdVxK, h]

theorem exec_ldVxK_of_some {x : Reg} {s : State} {k : Key} (h : leastPressed s = some k) :
    exec (.ldVxK x) s = .next (s.setV x (keyByte k)) := by
  simp only [exec, execLdVxK, h]

/-! ### `PC` after a step (R111) -/

/-- The operations that write `PC` beyond the pre-advance. -/
def writesPc : Instr → Bool
  | .jp _ | .call _ | .jpV0 _ | .ret => true
  | .seImm _ _ | .sneImm _ _ | .seReg _ _ | .sneReg _ _ | .skp _ | .sknp _ => true
  | .ldVxK _ => true
  | _ => false

/-- Every other operation leaves `PC` as the pre-advance left it. -/
theorem exec_keeps_pc {i : Instr} (hi : writesPc i = false) (s : State) :
    AllNext (fun t => t.pc = s.pc) (exec i s) := by
  cases i with
  | jp | call | jpV0 | ret | seImm | sneImm | seReg | sneReg | skp | sknp | ldVxK => cases hi
  | sys nnn => exact allNext_sysEffect sysBehaviour (encode (.sys nnn)) rfl
  | ldF x => exact allNext_ldFWith _ x fun _ => rfl
  | addReg | sub | shr | subn | shl => exact allNext_next (writeFlagged_pc _ _ _ _ s)
  | drw | ldB | store | load => exact allNext_guardSpan fun _ => allNext_next rfl
  | cls | ldImm | addImm | ldReg | orReg | andReg | xorReg | ldVxDt | rnd | ldDtVx | ldStVx | ldI | addI =>
    exact allNext_next rfl

section PcAfterFetch
variable {s t : State} (hfetch : s.pc.toNat + 1 < Config.memSize)
include hfetch

/-- The second increment of a matching skip does not wrap either. -/
theorem toNat_pc_advance_advance : s.advance.advance.pc.toNat = s.pc.toNat + 4 := by
  have hpc := advance_pc_toNat hfetch
  simp only [Config.memSize] at hfetch
  rw [State.advance_pc, BitVec.toNat_add, hpc, BitVec.toNat_ofNat]
  omega

theorem toNat_pc_of_skipIf {c : Bool} (e : skipIf c s.advance = .next t) :
    t.pc.toNat = s.pc.toNat + if c then 4 else 2 := by
  obtain rfl := Host.Outcome.next.inj e
  cases c
  · exact advance_pc_toNat hfetch
  · exact toNat_pc_advance_advance hfetch

theorem toNat_pc_of_skipOnKey {pressed : Bool} {x : Reg} (e : skipOnKey pressed x s.advance = .next t) :
    ∃ k : Key, k.val = (s.getV x).toNat ∧
      t.pc.toNat = s.pc.toNat + if s.key k == pressed then 4 else 2 := by
  obtain ⟨k, hk, e⟩ := (skipOnKey_eq_next_iff pressed x s.advance t).mp e
  exact ⟨k, hk, toNat_pc_of_skipIf hfetch e⟩

/-- The wait stands still without a key, the rewind undoing the pre-advance, and goes on with one. -/
theorem pc_of_ldVxK {x : Reg} (e : exec (.ldVxK x) s.advance = .next t) :
    ((∀ k, s.key k = false) → t.pc = s.pc) ∧ ((∃ k, s.key k = true) → t.pc.toNat = s.pc.toNat + 2) := by
  have hnone : leastPressed s.advance = none ↔ ∀ k, s.key k = false := leastPressed_eq_none
  cases hk : leastPressed s.advance with
  | none =>
    obtain rfl := Host.Outcome.next.inj ((exec_ldVxK_of_none hk).symm.trans e)
    refine ⟨fun _ => by rw [advance_rewind], fun ⟨k, hpressed⟩ => ?_⟩
    simp [hnone.mp hk k] at hpressed
  | some k =>
    obtain rfl := Host.Outcome.next.inj ((exec_ldVxK_of_some hk).symm.trans e)
    exact ⟨fun hall => by simp [hnone.mpr hall] at hk, fun _ => advance_pc_toNat hfetch⟩

end PcAfterFetch

/-- Settles O9: the step runs the fetched operation on the pre-advanced state, which writes `PC` as a
transfer, a skip or the key wait, or not at all. -/
theorem programCounterAfterStep : Obligations.ProgramCounterAfterStep := by
  intro s t h
  obtain ⟨i, hi, e⟩ := (step_eq_next_iff s t).mp h
  obtain ⟨hfetch, -⟩ := (fetchesOp_iff s i).mp hi
  refine ⟨i, hi, ?_⟩
  cases i with
  | jp nnn =>
    obtain rfl := Host.Outcome.next.inj e
    exact toNat_zextAddr nnn
  | jpV0 nnn =>
    obtain rfl := Host.Outcome.next.inj e
    exact toNat_indexedTarget nnn (s.getV 0)
  | call nnn =>
    obtain ⟨-, rfl⟩ := (exec_call_eq_next_iff nnn _ t).mp e
    exact toNat_zextAddr nnn
  | ret =>
    obtain ⟨hsp, rfl⟩ := (exec_ret_eq_next_iff _ t).mp e
    exact ⟨hsp, fun j hj => stack_top_eq hj⟩
  | seImm | seReg => simpa only [beq_iff_eq, State.getV_advance] using toNat_pc_of_skipIf hfetch e
  | sneImm | sneReg =>
    simpa only [bne_iff_ne, ne_eq, ite_not, State.getV_advance] using toNat_pc_of_skipIf hfetch e
  | skp x => simpa only [beq_iff_eq] using toNat_pc_of_skipOnKey hfetch e
  | sknp x => simpa only [beq_iff_eq, ← Bool.not_eq_true, ite_not] using toNat_pc_of_skipOnKey hfetch e
  | ldVxK x => exact pc_of_ldVxK hfetch e
  | _ =>
    have hpc := exec_keeps_pc rfl s.advance t e
    exact hpc ▸ advance_pc_toNat hfetch

end Sys2Proof.Machine
end

section
/-!
SUPPORT. The rules of spec/41_alu.md: arithmetic modulo 256 and its flags (R132), the operations that write one
register (R130, R131, R135 to R138), the flagged ones (R133, R139 to R143) and the random byte (R144).
-/

namespace Sys2Proof.Machine

/-! ### Results and flags as numbers (R132) -/

theorem toNat_addBytes (a b : Byte) : (addBytes a b).toNat = (a.toNat + b.toNat) % 256 := by
  rw [addBytes, BitVec.toNat_ofNat, Nat.mod_mod]

theorem toNat_subBytes (a b : Byte) : (subBytes a b).toNat = (256 + a.toNat - b.toNat) % 256 := by
  rw [subBytes, BitVec.toNat_ofNat, Nat.mod_mod]

theorem addBytes_eq_add (a b : Byte) : addBytes a b = a + b :=
  BitVec.eq_of_toNat_eq ((toNat_addBytes a b).trans (BitVec.toNat_add a b).symm)

theorem subBytes_eq_sub (a b : Byte) : subBytes a b = a - b := by
  apply BitVec.eq_of_toNat_eq
  have := b.isLt
  rw [toNat_subBytes, BitVec.toNat_sub]
  omega

theorem toNat_flagByte (f : Bool) : (flagByte f).toNat = f.toNat := by
  cases f <;> rfl

theorem toNat_flagByte_decide (P : Prop) [Decidable P] :
    (flagByte (decide P)).toNat = if P then 1 else 0 := by
  rw [toNat_flagByte, Bool.toNat, Bool.cond_decide]

/-- A bit of a byte, as the flag that a shift moves it into. -/
theorem toNat_flagByte_getLsbD (a : Byte) (i : Nat) :
    (flagByte (a.getLsbD i)).toNat = a.toNat / 2 ^ i % 2 :=
  (toNat_flagByte _).trans (Nat.toNat_testBit a.toNat i)

/-! ### Operations that write one register and no flag (R130, R131, R134 to R138) -/

theorem frame_setV (s : State) (x : Reg) (b : Byte) : Frame { regs := [x] } s (s.setV x b) :=
  (frame_refl _ s).setV (List.mem_singleton_self x) b

/-- Settles O28: the operation is one register write. -/
theorem ldImmLoadsImmediate : Obligations.LdImmLoadsImmediate := by
  intro x kk s
  exact ⟨s.setV x kk, rfl, State.getV_setV_self s x kk, frame_setV s x kk, rfl⟩

/-- Settles O29: one register write, of the sum modulo 256. -/
theorem addImmWrapsWithoutFlag : Obligations.AddImmWrapsWithoutFlag := by
  intro x kk s
  refine ⟨s.setV x (addBytes (s.getV x) kk), rfl, ?_, frame_setV s x _, rfl⟩
  rw [State.getV_setV_self, toNat_addBytes]

/-- Settles O30: each operation is one register write, of the copy or of the bitwise result. -/
theorem copyAndLogicWriteTheirResult : Obligations.CopyAndLogicWriteTheirResult := by
  intro x y s
  refine ⟨⟨_, rfl, State.getV_setV_self s x _, frame_setV s x _, rfl⟩,
    ⟨_, rfl, fun b => ?or, frame_setV s x _, rfl⟩,
    ⟨_, rfl, fun b => ?and, frame_setV s x _, rfl⟩,
    ⟨_, rfl, fun b => ?xor, frame_setV s x _, rfl⟩⟩
  case or => rw [State.getV_setV_self, BitVec.getLsbD_or]
  case and => rw [State.getV_setV_self, BitVec.getLsbD_and]
  case xor => rw [State.getV_setV_self, BitVec.getLsbD_xor]

/-! ### Flagged operations (R133, R139 to R143) -/

section FlaggedWrite
variable {o : FlagWriteOrder} {x : Reg} (b : Byte) (f : Bool) (s : State)

/-- The destination holds the result, unless it is `VF` and the flag is written over it. -/
theorem getV_writeFlagged_self (h : x ≠ 15 ∨ o = .resultLast) : (writeFlagged o x b f s).getV x = b := by
  rw [getV_writeFlagged, if_pos ⟨rfl, h⟩]

/-- `VF` holds the flag, unless it is the destination and the result is written over it. -/
theorem getV_writeFlagged_flagReg (h : ¬ (x = 15 ∧ o = .resultLast)) :
    (writeFlagged o x b f s).getV 15 = flagByte f := by
  have hkept : ¬ (15 = x ∧ (x ≠ flagReg ∨ o = .resultLast)) :=
    fun ⟨hx, hor⟩ => hor.elim (fun hne => hne hx.symm) fun ho => h ⟨hx.symm, ho⟩
  rw [getV_writeFlagged, if_neg hkept, if_pos (show (15 : Reg) = flagReg from rfl)]

theorem getV_writeFlagged_of_ne {r : Reg} (hx : r ≠ x) (hf : r ≠ 15) :
    (writeFlagged o x b f s).getV r = s.getV r := by
  rw [getV_writeFlagged, if_neg fun h => hx h.1, if_neg (show r ≠ flagReg from hf)]

end FlaggedWrite

/-- An operation whose whole effect is one flagged write, under the default order. -/
theorem exists_next_writeFlagged {r : Result} {x : Reg} {b : Byte} {f : Bool} {s : State} {result flag : Nat}
    (e : r = .next (writeFlagged flagWriteOrder x b f s)) (hb : b.toNat = result)
    (hf : (flagByte f).toNat = flag) :
    ∃ t, r = .next t ∧ (x ≠ 15 → (t.getV x).toNat = result) ∧
      (t.getV 15).toNat = (if x = 15 ∧ flagWriteOrder = .resultLast then result else flag) ∧
      Frame { regs := [x, 15] } s t ∧ t.pc = s.pc := by
  refine ⟨_, e, fun hx => ?result, ?vf, ?frame, writeFlagged_pc _ _ _ _ s⟩
  case result => rw [getV_writeFlagged_self b f s (.inl hx), hb]
  case vf =>
    split
    next h =>
      obtain ⟨rfl, ho⟩ := h
      rw [getV_writeFlagged_self b f s (.inr ho), hb]
    next h => rw [getV_writeFlagged_flagReg b f s h, hf]
  case frame => exact (frame_refl _ s).writeFlagged (by simp) (by simp [flagReg]) _ b f

/-- Settles O31: a flagged write of the sum and the carry. -/
theorem addRegWritesSumAndCarry : Obligations.AddRegWritesSumAndCarry := by
  intro x y s
  exact exists_next_writeFlagged rfl (toNat_addBytes _ _) (toNat_flagByte_decide _)

/-- Settles O32: a flagged write of the difference and the not-borrow. -/
theorem subWritesDifferenceAndNotBorrow : Obligations.SubWritesDifferenceAndNotBorrow := by
  intro x y s
  exact exists_next_writeFlagged rfl (toNat_subBytes _ _) (toNat_flagByte_decide _)

/-- Settles O33: the same, with the operands swapped. -/
theorem subnWritesReverseDifference : Obligations.SubnWritesReverseDifference := by
  intro x y s
  exact exists_next_writeFlagged rfl (toNat_subBytes _ _) (toNat_flagByte_decide _)

/-- Settles O34: flagged writes of the halved value with bit 0 and of the doubled one with bit 7. -/
theorem shiftsWriteResultAndBitShiftedOut : Obligations.ShiftsWriteResultAndBitShiftedOut := by
  intro x s
  have bit_zero : (flagByte (shiftedOutLow (s.getV x))).toNat = (s.getV x).toNat % 2 := by
    rw [shiftedOutLow, toNat_flagByte_getLsbD, pow_zero, Nat.div_one]
  have bit_seven : (flagByte (shiftedOutHigh (s.getV x))).toNat = (s.getV x).toNat / 128 := by
    have := (s.getV x).isLt
    rw [shiftedOutHigh, toNat_flagByte_getLsbD]
    omega
  have halved : (s.getV x >>> 1).toNat = (s.getV x).toNat / 2 := by
    rw [BitVec.toNat_ushiftRight, Nat.shiftRight_one]
  have doubled : (s.getV x <<< 1).toNat = (s.getV x).toNat * 2 % 256 := by
    rw [BitVec.toNat_shiftLeft, Nat.shiftLeft_eq, pow_one]
  exact ⟨exists_next_writeFlagged rfl halved bit_zero, exists_next_writeFlagged rfl doubled bit_seven⟩

/-- Settles O35: `execWith` hands its order to the flagged write, and the two orders differ in the register
written last. -/
theorem flagWriteOrderDecidesVf : Obligations.FlagWriteOrderDecidesVf := by
  refine ⟨rfl, fun p x y s => ?operations, fun x r b f s => ?orders⟩
  case operations =>
    simp only [← addBytes_eq_add, ← subBytes_eq_sub]
    exact ⟨rfl, rfl, rfl, rfl, rfl⟩
  case orders =>
    exact ⟨getV_writeFlagged_flagReg b f s nofun, fun hx => getV_writeFlagged_self b f s (.inl hx),
      getV_writeFlagged_self b f s (.inr rfl), fun hx => getV_writeFlagged_flagReg b f s fun h => hx h.1,
      fun hx hf => ⟨getV_writeFlagged_of_ne b f s hx hf, getV_writeFlagged_of_ne b f s hx hf⟩⟩

/-! ### The random byte (R144) -/

/-- `RND` advances the counter of draws and writes the masked byte, whatever the random input is. -/
theorem exec_rnd_eq (x : Reg) (kk : Byte) (s : State) :
    exec (.rnd x kk) s = .next ({ s with draws := s.draws + 1 }.setV x (Config.rnd s.draws &&& kk)) := rfl

theorem execWith_rnd_eq (p : Params) (x : Reg) (kk : Byte) (s : State) :
    execWith p (.rnd x kk) s = .next ({ s with draws := s.draws + 1 }.setV x (p.rnd s.draws &&& kk)) := rfl

/-- Settles O36: one draw and one register write; two random inputs differ in the register written. -/
theorem rndMasksOneDraw : Obligations.RndMasksOneDraw := by
  intro x kk s
  refine ⟨_, exec_rnd_eq x kk s, State.getV_setV_self _ x _, fun hkk => ?masked, rfl,
    (frame_draw s [x] _).setV (List.mem_singleton_self x) _, rfl, fun p => ?anyInput⟩
  case masked =>
    rw [State.getV_setV_self, hkk]
    exact BitVec.and_zero
  case anyInput =>
    refine ⟨_, execWith_rnd_eq p x kk s, State.getV_setV_self _ x _, rfl, fun r hr => ?_⟩
    rw [State.getV_setV, if_neg hr]
    rfl

end Sys2Proof.Machine
end

section
/-!
SUPPORT. The rules of spec/42_display.md: the clear (R160), the cells a sprite toggles and the collision flag
(R161, R162), the draw out of range (R161), and the erase by redraw (R163).
-/

namespace Sys2Proof.Machine

/-! ### The clear (R160) -/

/-- Settles O37: `CLS` replaces the display by the blank one, and nothing else. -/
theorem clsClearsEveryCell : Obligations.ClsClearsEveryCell := fun s =>
  ⟨s.setDisplay Display.blank, rfl, Display.get_blank, (frame_refl _ s).setDisplay rfl _, rfl⟩

/-! ### What a part of the blitter does to the display and the flag (R161) -/

/-- The blitter went from `a` to `b` by toggling exactly the cells of `C`, and raised the flag exactly where
one of them was lit. -/
def Toggles (C : Fin 64 → Fin 32 → Prop) (a b : Display × Bool) : Prop :=
  (∀ px py, C px py → b.1.get px py = !a.1.get px py) ∧
  (∀ px py, ¬ C px py → b.1.get px py = a.1.get px py) ∧
  (b.2 = true ↔ a.2 = true ∨ ∃ px py, C px py ∧ a.1.get px py = true)

section Toggles
variable {C D : Fin 64 → Fin 32 → Prop} {a b c : Display × Bool}

theorem Toggles.congr (h : Toggles C a b) (hiff : ∀ px py, C px py ↔ D px py) : Toggles D a b := by
  have hCD : C = D := funext₂ fun px py => propext (hiff px py)
  exact hCD ▸ h

theorem toggles_refl (hC : ∀ px py, ¬ C px py) : Toggles C a a :=
  ⟨fun px py h => absurd h (hC px py), fun _ _ _ => rfl, by simp [hC]⟩

/-- Two parts that share no cell: a cell of the second is seen by it as the first found it, so toggles and
collisions add up. -/
theorem Toggles.trans (hab : Toggles C a b) (hbc : Toggles D b c) (hdisj : ∀ px py, C px py → ¬ D px py) :
    Toggles (fun px py => C px py ∨ D px py) a c := by
  obtain ⟨hab_in, hab_out, hab_flag⟩ := hab
  obtain ⟨hbc_in, hbc_out, hbc_flag⟩ := hbc
  have hD_unseen {px py} (hD : D px py) : b.1.get px py = a.1.get px py :=
    hab_out px py fun hC => hdisj px py hC hD
  refine ⟨fun px py h => ?toggled, fun px py h => ?kept, ?flag⟩
  case toggled =>
    obtain hC | hD := h
    · rw [hbc_out px py (hdisj px py hC), hab_in px py hC]
    · rw [hbc_in px py hD, hD_unseen hD]
  case kept =>
    obtain ⟨hC, hD⟩ := not_or.mp h
    rw [hbc_out px py hD, hab_out px py hC]
  case flag =>
    have hcollide : (∃ px py, D px py ∧ b.1.get px py = true) ↔ ∃ px py, D px py ∧ a.1.get px py = true :=
      exists₂_congr fun px py => and_congr_right fun hD => by rw [hD_unseen hD]
    rw [hbc_flag, hab_flag, hcollide]
    simp only [or_and_right, exists_or, or_assoc]

end Toggles

/-! ### The cells a bit, a row and a list of rows cover (R161, R162) -/

/-- Column `c` of a sprite row drawn on screen row `cy` from column `cx` is a set bit on the cell
`(px, py)`. -/
def BitCovers (cx cy : Nat) (row : Byte) (c : Nat) (px : Fin 64) (py : Fin 32) : Prop :=
  spriteBit row c = true ∧ (cx + c) % 64 = px.val ∧ cy % 32 = py.val

/-- One of the first `k` columns of the row covers the cell. -/
def RowCovers (cx cy : Nat) (row : Byte) (k : Nat) (px : Fin 64) (py : Fin 32) : Prop :=
  ∃ c < k, BitCovers cx cy row c px py

/-- One of the rows, the first drawn on screen row `cy`, covers the cell. -/
def RowsCover (cx cy : Nat) (rows : List Byte) (px : Fin 64) (py : Fin 32) : Prop :=
  ∃ r row, rows[r]? = some row ∧ RowCovers cx (cy + r) row 8 px py

theorem rowCovers_succ {cx cy : Nat} {row : Byte} {k : Nat} {px : Fin 64} {py : Fin 32} :
    RowCovers cx cy row (k + 1) px py ↔ RowCovers cx cy row k px py ∨ BitCovers cx cy row k px py :=
  Nat.exists_lt_succ_right

theorem rowsCover_cons {cx cy : Nat} {row : Byte} {rows : List Byte} {px : Fin 64} {py : Fin 32} :
    RowsCover cx cy (row :: rows) px py ↔
      RowCovers cx cy row 8 px py ∨ RowsCover cx (cy + 1) rows px py := by
  constructor
  · rintro ⟨r, row', hrow, hcov⟩
    cases r with
    | zero =>
      obtain rfl : row = row' := by simpa using hrow
      exact .inl hcov
    | succ r => exact .inr ⟨r, row', by simpa using hrow, by rwa [Nat.add_right_comm]⟩
  · rintro (hcov | ⟨r, row', hrow, hcov⟩)
    · exact ⟨0, row, rfl, hcov⟩
    · exact ⟨r + 1, row', by simpa using hrow, by rwa [Nat.add_right_comm] at hcov⟩

/-- Columns less than 64 apart do not meet when they wrap around the edge. -/
theorem not_bitCovers_of_rowCovers {cx cy : Nat} {row : Byte} {k : Nat} (hk : k < 64) {px : Fin 64} {py : Fin 32}
    (h : RowCovers cx cy row k px py) : ¬ BitCovers cx cy row k px py := by
  rintro ⟨-, hx, -⟩
  obtain ⟨c, hc, -, hx', -⟩ := h
  omega

/-- Rows less than 32 apart do not meet when they wrap around the edge. -/
theorem not_rowsCover_of_rowCovers {cx cy : Nat} {row : Byte} {rows : List Byte} (hlen : rows.length < 32)
    {px : Fin 64} {py : Fin 32} (h : RowCovers cx cy row 8 px py) : ¬ RowsCover cx (cy + 1) rows px py := by
  rintro ⟨r, row', hrow, c', -, -, -, hy'⟩
  obtain ⟨c, -, -, -, hy⟩ := h
  obtain ⟨hr, -⟩ := List.getElem?_eq_some_iff.mp hrow
  omega

/-- The rows read from memory cover the cells that `Covers` names. -/
theorem rowsCover_readSpan {m : Memory} {base n cx cy : Nat} {px : Fin 64} {py : Fin 32} :
    RowsCover cx cy (m.readSpan base n) px py ↔ Covers m base n cx cy px py := by
  constructor
  · rintro ⟨r, row, hrow, c, hc, hbit, hx, hy⟩
    obtain ⟨hr, rfl⟩ := List.getElem?_eq_some_iff.mp hrow
    rw [Memory.getElem_readSpan] at hbit
    exact ⟨r, c, by simpa using hr, hc, hbit, hx, hy⟩
  · rintro ⟨r, c, hr, hc, hbit, hx, hy⟩
    have hlen : r < (m.readSpan base n).length := by rwa [Memory.length_readSpan]
    refine ⟨r, m.read (base + r), ?_, c, hc, hbit, hx, hy⟩
    rw [List.getElem?_eq_getElem hlen, Memory.getElem_readSpan]

/-- A sprite covers some cell exactly when it has a set bit: wrapped around, every bit lands on a cell. -/
theorem exists_covers_iff (m : Memory) (base n cx cy : Nat) :
    (∃ px py, Covers m base n cx cy px py) ↔
      ∃ r c, r < n ∧ c < 8 ∧ (m.read (base + r)).getLsbD (7 - c) = true := by
  constructor
  · rintro ⟨px, py, r, c, hr, hc, hbit, -⟩
    exact ⟨r, c, hr, hc, hbit⟩
  · rintro ⟨r, c, hr, hc, hbit⟩
    exact ⟨Fin.ofNat 64 (cx + c), Fin.ofNat 32 (cy + r), r, c, hr, hc, hbit, rfl, rfl⟩

/-! ### The blitter toggles the covered cells (R161, R162) -/

theorem toggleCell_toggles (cx cy : Nat) (a : Display × Bool) :
    Toggles (fun px py => cx % 64 = px.val ∧ cy % 32 = py.val) a (toggleCell cx cy a) := by
  refine ⟨fun px py h => ?_, fun px py h => ?_, ?flag⟩
  · rw [get_toggleCell, if_pos h]
  · rw [get_toggleCell, if_neg h]
  case flag =>
    rw [flag_toggleCell, Bool.or_eq_true]
    refine or_congr_right ⟨fun hlit => ⟨_, _, ⟨rfl, rfl⟩, hlit⟩, ?_⟩
    rintro ⟨px, py, ⟨hx, hy⟩, hlit⟩
    obtain rfl : Fin.ofNat 64 cx = px := Fin.ext hx
    obtain rfl : Fin.ofNat 32 cy = py := Fin.ext hy
    exact hlit

theorem blitColumn_toggles (cx cy : Nat) (row : Byte) (a : Display × Bool) (c : Nat) :
    Toggles (BitCovers cx cy row c) a (blitColumn cx cy row a c) := by
  unfold blitColumn
  split
  next hbit => exact (toggleCell_toggles (cx + c) cy a).congr fun px py => (and_iff_right hbit).symm
  next hbit => exact toggles_refl fun px py h => hbit h.1

theorem blitColumns_toggles (cx cy : Nat) (row : Byte) (a : Display × Bool) {k : Nat} (hk : k ≤ 64) :
    Toggles (RowCovers cx cy row k) a ((List.range k).foldl (blitColumn cx cy row) a) := by
  induction k with
  | zero => exact toggles_refl fun px py ⟨c, hc, _⟩ => absurd hc c.not_lt_zero
  | succ k ih =>
    rw [List.range_succ, List.foldl_concat]
    exact ((ih (by omega)).trans (blitColumn_toggles cx cy row _ k)
      fun px py => not_bitCovers_of_rowCovers hk).congr fun px py => rowCovers_succ.symm

theorem blitRows_toggles (cx cy : Nat) (rows : List Byte) (a : Display × Bool) (hlen : rows.length ≤ 32) :
    Toggles (RowsCover cx cy rows) a (blitRows cx cy rows a) := by
  induction rows generalizing cy a with
  | nil => exact toggles_refl fun px py ⟨r, row, hrow, _⟩ => by simp at hrow
  | cons row rows ih =>
    have hlt : rows.length < 32 := hlen
    have hrow : Toggles (RowCovers cx cy row 8) a (blitRow cx cy row a) :=
      blitColumns_toggles cx cy row a (by decide)
    exact (hrow.trans (ih (cy + 1) _ hlt.le) fun px py => not_rowsCover_of_rowCovers hlt).congr
      fun px py => rowsCover_cons.symm

/-! ### The state after a draw (R161) -/

/-- The cells that `DRW Vx, Vy, n` covers in `s`. -/
def DrwCovers (x y : Reg) (n : Fin 16) (s : State) : Fin 64 → Fin 32 → Prop :=
  Covers s.mem s.i.toNat n.val (s.getV x).toNat (s.getV y).toNat

/-- The display and the collision flag that `DRW Vx, Vy, n` makes of those of `s`. -/
def drwBlit (x y : Reg) (n : Fin 16) (s : State) : Display × Bool :=
  blit s.display (s.getV x).toNat (s.getV y).toNat (s.mem.readSpan s.i.toNat n.val)

/-- What `DRW Vx, Vy, n` makes of `s` where its rows are in range. -/
def afterDrw (x y : Reg) (n : Fin 16) (s : State) : State :=
  (s.setDisplay (drwBlit x y n s).1).setV flagReg (flagByte (drwBlit x y n s).2)

theorem exec_drw_eq_guardSpan (x y : Reg) (n : Fin 16) (s : State) :
    exec (.drw x y n) s = guardSpan s.i.toNat n.val (.next (afterDrw x y n s)) := rfl

/-- `DRW` goes on exactly where it reads no row or all its rows are in range. -/
theorem exec_drw_eq_next_iff (x y : Reg) (n : Fin 16) (s t : State) :
    exec (.drw x y n) s = .next t ↔
      (s.i.toNat + n.val ≤ Config.memSize ∨ n.val = 0) ∧ t = afterDrw x y n s := by
  rw [exec_drw_eq_guardSpan]
  obtain ⟨hin, e⟩ | ⟨hout, hn, e⟩ := guardSpan_cases s.i.toNat n.val (.next (afterDrw x y n s))
  · simp only [e, Host.Outcome.next.injEq, hin, true_and, eq_comm]
  · simp only [e, reduceCtorEq, false_iff, not_and]
    omega

theorem flagByte_eq_one_iff {f : Bool} : flagByte f = 1 ↔ f = true := by
  cases f <;> decide

theorem flagByte_eq_zero_iff {f : Bool} : flagByte f = 0 ↔ f = false := by
  cases f <;> decide

section AfterDrw
variable (x y : Reg) (n : Fin 16) (s : State)

/-- A sprite has at most 15 rows, so none of them wraps around onto another. -/
theorem drwBlit_toggles : Toggles (DrwCovers x y n s) (s.display, false) (drwBlit x y n s) :=
  (blitRows_toggles _ _ _ _ (by rw [Memory.length_readSpan]; omega)).congr fun _ _ => rowsCover_readSpan

theorem pixel_afterDrw_of_covers {px : Fin 64} {py : Fin 32} (h : DrwCovers x y n s px py) :
    (afterDrw x y n s).pixel px py = !s.pixel px py := by
  obtain ⟨htoggled, -, -⟩ := drwBlit_toggles x y n s
  exact htoggled px py h

theorem pixel_afterDrw_of_not_covers {px : Fin 64} {py : Fin 32} (h : ¬ DrwCovers x y n s px py) :
    (afterDrw x y n s).pixel px py = s.pixel px py := by
  obtain ⟨-, hkept, -⟩ := drwBlit_toggles x y n s
  exact hkept px py h

theorem vf_afterDrw : (afterDrw x y n s).getV 15 = flagByte (drwBlit x y n s).2 :=
  State.getV_setV_self _ flagReg _

/-- `VF` is 1 where a covered cell was lit. -/
theorem vf_afterDrw_eq_one_iff :
    (afterDrw x y n s).getV 15 = 1 ↔ ∃ px py, DrwCovers x y n s px py ∧ s.pixel px py = true := by
  obtain ⟨-, -, hflag⟩ := drwBlit_toggles x y n s
  simp only [Bool.false_eq_true, false_or] at hflag
  rw [vf_afterDrw, flagByte_eq_one_iff, hflag]
  rfl

/-- `VF` is 0 where none was. -/
theorem vf_afterDrw_eq_zero_iff :
    (afterDrw x y n s).getV 15 = 0 ↔ ¬ ∃ px py, DrwCovers x y n s px py ∧ s.pixel px py = true := by
  rw [← vf_afterDrw_eq_one_iff, vf_afterDrw, flagByte_eq_one_iff, flagByte_eq_zero_iff, Bool.not_eq_true]

theorem frame_afterDrw : Frame { regs := [15], display := true } s (afterDrw x y n s) :=
  ((frame_refl _ s).setDisplay rfl _).setV (List.mem_singleton_self flagReg) _

end AfterDrw

/-- Settles O38: in range `DRW` answers `afterDrw`, of which the lemmas above say each part. -/
theorem drwTogglesTheCoveredCells : Obligations.DrwTogglesTheCoveredCells := by
  intro x y n s hin
  exact ⟨afterDrw x y n s, (exec_drw_eq_next_iff x y n s _).mpr ⟨hin.symm, rfl⟩,
    fun _ _ => pixel_afterDrw_of_covers x y n s, fun _ _ => pixel_afterDrw_of_not_covers x y n s,
    (vf_afterDrw_eq_one_iff x y n s).mpr, (vf_afterDrw_eq_zero_iff x y n s).mpr, frame_afterDrw x y n s, rfl⟩

/-! ### The draw out of range (R161; 20_memory.md R54) -/

/-- Settles O39: the span check faults before a cell is drawn, and the step leaves only the pre-advance. -/
theorem drwOutOfRangeFaults : Obligations.DrwOutOfRangeFaults := by
  intro x y n s hn hout
  have hexec : exec (.drw x y n) s = .fault (.invalidMemoryAccess (max s.i.toNat 4096)) :=
    guardSpan_fault hout hn _
  have hadvanced : exec (.drw x y n) s.advance = .fault (.invalidMemoryAccess (max s.i.toNat 4096)) :=
    guardSpan_fault (base := s.advance.i.toNat) hout hn _
  refine ⟨hexec, fun hfetch => ?_⟩
  rw [stepPort_of_exec_fault hfetch hadvanced]
  exact ⟨rfl, rfl, rfl⟩

/-! ### Erase by redraw (R163) -/

section Redraw
variable {x y : Reg} {n : Fin 16} {s u : State}

/-- `u` is a state in which the draw that was made in `s` can be repeated: the display is the one it left, and
the sprite lies over the same cells. -/
structure CanRedraw (x y : Reg) (n : Fin 16) (s u : State) : Prop where
  display : u.display = (afterDrw x y n s).display
  covers : DrwCovers x y n u = DrwCovers x y n s

variable (h : CanRedraw x y n s u)
include h

theorem CanRedraw.pixel (px : Fin 64) (py : Fin 32) : u.pixel px py = (afterDrw x y n s).pixel px py :=
  congrArg (Display.get · px py) h.display

/-- The two toggles of a covered cell cancel, and no other cell is toggled. -/
theorem CanRedraw.pixel_afterDrw (px : Fin 64) (py : Fin 32) :
    (afterDrw x y n u).pixel px py = s.pixel px py := by
  by_cases hcov : DrwCovers x y n s px py
  · rw [pixel_afterDrw_of_covers x y n u (h.covers ▸ hcov), h.pixel, pixel_afterDrw_of_covers x y n s hcov,
      Bool.not_not]
  · rw [pixel_afterDrw_of_not_covers x y n u (h.covers ▸ hcov), h.pixel,
      pixel_afterDrw_of_not_covers x y n s hcov]

/-- The second draw meets a lit cell exactly where the first lit one. -/
theorem CanRedraw.collides_iff :
    (∃ px py, DrwCovers x y n u px py ∧ u.pixel px py = true) ↔
      ∃ px py, DrwCovers x y n s px py ∧ s.pixel px py = false := by
  rw [h.covers]
  refine exists₂_congr fun px py => and_congr_right fun hcov => ?_
  rw [h.pixel, pixel_afterDrw_of_covers x y n s hcov, Bool.not_eq_true']

end Redraw

/-- Settles O40: the second draw toggles the cells of the first again, and the covered cells lit after the
first are those that were unlit before it. -/
theorem redrawErasesTheSprite : Obligations.RedrawErasesTheSprite := by
  intro x y n s t u hfirst hdisplay hi hmem hx hy covers setBit
  obtain ⟨hin, rfl⟩ := (exec_drw_eq_next_iff x y n s t).mp hfirst
  have h : CanRedraw x y n s u := ⟨hdisplay, by simp only [DrwCovers, hi, hmem, hx, hy]⟩
  have hone : (∃ px py, covers px py ∧ s.pixel px py = false) → (afterDrw x y n u).getV 15 = 1 :=
    fun hunlit => (vf_afterDrw_eq_one_iff x y n u).mpr (h.collides_iff.mpr hunlit)
  have hzero : (¬ ∃ px py, covers px py ∧ s.pixel px py = false) → (afterDrw x y n u).getV 15 = 0 :=
    fun hlit => (vf_afterDrw_eq_zero_iff x y n u).mpr (mt h.collides_iff.mp hlit)
  have hset : setBit ↔ ∃ px py, covers px py := (exists_covers_iff _ _ _ _ _).symm
  have hclean (hvf : (afterDrw x y n s).getV 15 = 0) :
      (setBit → (afterDrw x y n u).getV 15 = 1) ∧ (¬ setBit → (afterDrw x y n u).getV 15 = 0) := by
    have hmissed := (vf_afterDrw_eq_zero_iff x y n s).mp hvf
    refine ⟨fun hbit => hone ?_, fun hbit => hzero fun ⟨px, py, hcov, _⟩ => hbit (hset.mpr ⟨px, py, hcov⟩)⟩
    obtain ⟨px, py, hcov⟩ := hset.mp hbit
    exact ⟨px, py, hcov, Bool.eq_false_iff.mpr fun hlit => hmissed ⟨px, py, hcov, hlit⟩⟩
  refine ⟨afterDrw x y n u, (exec_drw_eq_next_iff x y n u _).mpr ⟨hi.symm ▸ hin, rfl⟩, h.pixel_afterDrw,
    hone, hzero, fun hclear => ?_, hclean⟩
  have hvf : (afterDrw x y n s).getV 15 = 0 :=
    (vf_afterDrw_eq_zero_iff x y n s).mpr fun ⟨px, py, _, hlit⟩ => by simp [hclear] at hlit
  exact ⟨hvf, hclean hvf⟩

end Sys2Proof.Machine
end

section
/-!
SUPPORT. The rules of spec/43_input_timers.md: the key wait (R177), the key skips (R175, R176) and their fault
(R181), and the timer moves (R178 to R180).
-/

namespace Sys2Proof.Machine

/-! ### The key wait (R177) -/

/-- There is only one least pressed key, so the wait finds it. -/
theorem leastPressed_of_least {s : State} {k : Key} (hk : s.key k = true) (hleast : ∀ j < k, s.key j = false) :
    leastPressed s = some k := by
  cases hfound : leastPressed s with
  | none => simp [leastPressed_eq_none.mp hfound k] at hk
  | some j =>
    obtain ⟨hj, hjleast⟩ := leastPressed_eq_some hfound
    obtain hlt | rfl | hgt := lt_trichotomy j k
    · simp [hleast j hlt] at hj
    · rfl
    · simp [hjleast k hgt] at hk

theorem toNat_keyByte (k : Key) : (keyByte k).toNat = k.val := by
  rw [keyByte, BitVec.toNat_ofNat, Nat.mod_eq_of_lt (by omega)]

/-- Settles O43: without a key the wait rewinds `PC`, with one it is one register write. -/
theorem keyWaitCapturesTheLeastKey : Obligations.KeyWaitCapturesTheLeastKey := by
  intro x s
  refine ⟨fun hnone => exec_ldVxK_of_none (leastPressed_eq_none.mpr hnone), fun k hk hleast => ?_⟩
  refine ⟨_, exec_ldVxK_of_some (leastPressed_of_least hk hleast), ?_, frame_setV s x _, rfl⟩
  rw [State.getV_setV_self, toNat_keyByte]

/-! ### The key skips (R175, R176, R181) -/

/-- Settles O41: where the register names a key, each is `skipIf` of that key's state. -/
theorem keySkipsTestTheNamedKey : Obligations.KeySkipsTestTheNamedKey := by
  intro x k s hk
  refine ⟨(skipOnKey_eq_next_iff true x s _).mpr ⟨k, hk, ?_⟩,
    (skipOnKey_eq_next_iff false x s _).mpr ⟨k, hk, ?_⟩⟩
  all_goals cases s.key k <;> rfl

theorem skipOnKey_of_no_key {x : Reg} {s : State} (h : 16 ≤ (s.getV x).toNat) (pressed : Bool) :
    skipOnKey pressed x s = .fault (.undefinedKeyIndex (s.getV x)) := by
  simp only [skipOnKey, keyIndex_eq_none.mpr h, raise]

/-- Settles O42: a value of 16 or more names no key, whichever state the skip asks for. -/
theorem keySkipsFaultAboveFifteen : Obligations.KeySkipsFaultAboveFifteen := fun _ _ h =>
  ⟨skipOnKey_of_no_key h true, skipOnKey_of_no_key h false⟩

/-! ### The timer moves (R178 to R180) -/

/-- Settles O45: each move is one write, of a register or of a timer. -/
theorem timerMovesCopyTheValue : Obligations.TimerMovesCopyTheValue := fun x s =>
  ⟨⟨s.setV x s.dt, rfl, State.getV_setV_self s x s.dt, frame_setV s x s.dt, rfl⟩,
    ⟨s.setDt (s.getV x), rfl, rfl, frame_setDt s _, rfl⟩,
    ⟨s.setSt (s.getV x), rfl, rfl, frame_setSt s _, rfl⟩⟩

end Sys2Proof.Machine
end

section
/-!
SUPPORT. The rules of spec/44_index_memory.md: the address register (R190 to R192), and the memory transfers in
range and out of range (R193 to R195; 20_memory.md R54).
-/

namespace Sys2Proof.Machine

/-! ### The address register (R190, R191) -/

/-- Settles O46: the operation is one write of `I`. -/
theorem ldISetsIndex : Obligations.LdISetsIndex := fun nnn s =>
  ⟨s.setI (zextAddr nnn), rfl, toNat_zextAddr nnn, frame_setI s _, rfl⟩

theorem toNat_zextByte (b : Byte) : (zextByte b).toNat = b.toNat :=
  BitVec.toNat_setWidth_of_le (by decide)

/-- Settles O47: the operation is one write of `I`, of a 16-bit sum. -/
theorem addIWrapsAtSixteenBits : Obligations.AddIWrapsAtSixteenBits := by
  intro x s
  refine ⟨s.setI (s.i + zextByte (s.getV x)), rfl, ?_, frame_setI s _, rfl⟩
  rw [State.setI_i, BitVec.toNat_add, toNat_zextByte]

/-! ### The glyph address (R192) -/

theorem glyphAddress_eq_none {base : Nat} {d : Byte} (hd : 15 < d.toNat) : glyphAddress base d = none :=
  if_neg (Nat.not_le.mpr hd)

theorem exec_ldF_of_no_glyph {x : Reg} {s : State} (hx : 15 < (s.getV x).toNat) :
    exec (.ldF x) s = .fault (.fontIndexOutOfRange (s.getV x)) := by
  change ldFWith fontBase x s = _
  simp only [ldFWith, glyphAddress_eq_none hx, raise]

/-- Settles O48: the default font has the glyph addresses of 0 to 15, from 0x000 on, and no others. -/
theorem ldFSetsGlyphAddressOrFaults : Obligations.LdFSetsGlyphAddressOrFaults := by
  intro x s
  refine ⟨fun hx => ?_, exec_ldF_of_no_glyph, fun hx hfetch => ?_⟩
  · obtain ⟨a, ha, hval⟩ := glyphAddress_of_wf defaultParams_wf hx
    exact ⟨s.setI a, ldFWith_of_glyphAddress ha, hval.trans (Nat.zero_add _), frame_setI s a, rfl⟩
  · rw [stepPort_of_exec_fault hfetch (exec_ldF_of_no_glyph (s := s.advance) hx)]
    exact ⟨rfl, rfl⟩

/-! ### A transfer whose span at `I` is out of range (R193 to R195; 20_memory.md R54) -/

/-- The operation reaches memory through a span of `n` bytes at `I`, in every state. -/
def GuardsSpanAtI (i : Instr) (n : Nat) : Prop :=
  ∀ s : State, ∃ effect, exec i s = guardSpan s.i.toNat n effect

theorem guardsSpanAtI_ldB (x : Reg) : GuardsSpanAtI (.ldB x) 3 := fun _ => ⟨_, rfl⟩
theorem guardsSpanAtI_store (x : Reg) : GuardsSpanAtI (.store x) (x.val + 1) := fun _ => ⟨_, rfl⟩
theorem guardsSpanAtI_load (x : Reg) : GuardsSpanAtI (.load x) (x.val + 1) := fun _ => ⟨_, rfl⟩

section OutOfRange
variable {i : Instr} {k : Nat} {s : State} (hguard : GuardsSpanAtI i (k + 1)) (hout : 4096 ≤ s.i.toNat + k)
include hguard hout

theorem GuardsSpanAtI.exec_fault : exec i s = .fault (.invalidMemoryAccess (max s.i.toNat 4096)) := by
  obtain ⟨effect, e⟩ := hguard s
  rw [e]
  exact guardSpan_fault (Nat.lt_succ_of_le hout) k.succ_ne_zero effect

/-- The two halves of the fault in one: what `exec` answers, and what the step port answers and keeps of a part
of the state that the pre-advance does not touch. -/
theorem GuardsSpanAtI.faults_keeping {α : Type} (part : State → α) (hpart : part s.advance = part s) :
    exec i s = .fault (.invalidMemoryAccess (max s.i.toNat 4096)) ∧
      (FetchesOp s i → (stepPort s).1 = .fault (.invalidMemoryAccess (max s.i.toNat 4096)) ∧
        part (stepPort s).2 = part s) := by
  refine ⟨hguard.exec_fault hout, fun hfetch => ?_⟩
  rw [stepPort_of_exec_fault hfetch (hguard.exec_fault (s := s.advance) hout)]
  exact ⟨rfl, hpart⟩

end OutOfRange

/-! ### Decimal digits (R193) -/

theorem exec_ldB_of_lt {x : Reg} {s : State} (hin : s.i.toNat + 2 < Config.memSize) :
    exec (.ldB x) s = .next (s.setMem (s.mem.writeSpan s.i.toNat (decimalDigits (s.getV x)))) :=
  guardSpan_ok (.inl hin) _

/-- The digits of a byte stand in memory from `base` upward, hundreds first. -/
theorem toNat_read_writeSpan_decimalDigits (m : Memory) (base : Nat) (b : Byte) :
    ((m.writeSpan base (decimalDigits b)).read base).toNat = b.toNat / 100 ∧
    ((m.writeSpan base (decimalDigits b)).read (base + 1)).toNat = b.toNat / 10 % 10 ∧
    ((m.writeSpan base (decimalDigits b)).read (base + 2)).toNat = b.toNat % 10 := by
  have digit (j : Nat) (hj : j < 3) :
      (m.writeSpan base (decimalDigits b)).read (base + j) = (decimalDigits b)[j] :=
    Memory.read_writeSpan_inside (decimalDigits b) m base j hj
  have hundreds := digit 0 (by decide)
  rw [Nat.add_zero] at hundreds
  rw [hundreds, digit 1 (by decide), digit 2 (by decide)]
  have := b.isLt
  simp only [decimalDigits, List.getElem_cons_zero, List.getElem_cons_succ, BitVec.toNat_ofNat]
  omega

/-- Settles O49: in range the span written is the three digits, out of range the span check faults first. -/
theorem ldBStoresDecimalDigits : Obligations.LdBStoresDecimalDigits := by
  intro x s v
  refine ⟨fun hin => ?_, fun hout => (guardsSpanAtI_ldB x).faults_keeping hout State.mem rfl⟩
  obtain ⟨hundreds, tens, ones⟩ := toNat_read_writeSpan_decimalDigits s.mem s.i.toNat (s.getV x)
  exact ⟨_, exec_ldB_of_lt hin, hundreds, tens, ones, frame_writeSpan s _ _, rfl⟩

/-! ### Register transfers (R194, R195) -/

theorem exec_load_of_lt {x : Reg} {s : State} (hin : s.i.toNat + x.val < Config.memSize) :
    exec (.load x) s = .next (loadRegs s s.i.toNat x) :=
  guardSpan_ok (.inl hin) _

/-- Settles O50: in range the span written is `V[0]` to `V[x]`, out of range the span check faults first. -/
theorem storeWritesRegistersUpward : Obligations.StoreWritesRegistersUpward := by
  intro x s
  refine ⟨fun hin => ?_, fun hout => (guardsSpanAtI_store x).faults_keeping hout State.mem rfl⟩
  have hexec := (exec_store_eq_next_iff x s _).mpr ⟨hin, rfl⟩
  exact ⟨_, hexec, fun r hr => read_writeSpan_regSpan s.mem s.i.toNat s hr,
    operationsWriteOnlyWhatTheSummaryLists (.store x) s _ hexec, rfl⟩

/-- Settles O51: in range the registers are those of `loadRegs`, out of range the span check faults first. -/
theorem loadReadsRegistersUpward : Obligations.LoadReadsRegistersUpward := by
  intro x s
  refine ⟨fun hin => ?_, fun hout => (guardsSpanAtI_load x).faults_keeping hout State.v rfl⟩
  exact ⟨loadRegs s s.i.toNat x, exec_load_of_lt hin, getV_loadRegs s s.i.toNat x, frame_loadRegs s _ x, rfl⟩

/-- Settles O52: the store was in range, so the load is, and each byte it reads is the one the store put
there. -/
theorem loadRestoresWhatStoreSaved : Obligations.LoadRestoresWhatStoreSaved := by
  intro x s t u hstore hi hmem
  obtain ⟨hin, rfl⟩ := (exec_store_eq_next_iff x s t).mp hstore
  rw [State.setMem_i] at hi
  refine ⟨loadRegs u u.i.toNat x, exec_load_of_lt (hi ▸ hin), fun r hr => ?_⟩
  rw [getV_loadRegs, if_pos hr, hmem, hi, State.setMem_mem, read_writeSpan_regSpan s.mem _ s hr]

end Sys2Proof.Machine
end

section
/-!
SUPPORT. The rules of spec/60_exceptions.md: the causes of the faults (R211, R213), the state a fault leaves
(R212, R215), no operation refused (R217), the ports of the host (R225 to R228), and the invariant over every
sequence of transactions (R230).
-/

namespace Sys2Proof.Machine

/-! ### Every transaction keeps the invariant (R215, R230) -/

theorem inv_resetWith {p : Params} (hp : p.wf) : Inv (State.resetWith p) := by
  refine ⟨Memory.wf_ofContents _, ?_, fun j hj => absurd hj (Nat.not_lt_zero j)⟩
  have ⟨_, himage, _, _⟩ := hp
  rw [State.toNat_pc_resetWith hp]
  simp only [Config.memSize] at himage
  omega

/-- The pre-advance after a fetch leaves `PC` at most 0x1000. -/
theorem Inv.advance {s : State} (h : Inv s) (hfetch : s.pc.toNat + 1 < Config.memSize) : Inv s.advance := by
  refine h.setPc ?_
  rw [← State.advance_pc, advance_pc_toNat hfetch]
  simp only [Config.memSize] at hfetch
  omega

theorem Inv.afterFault {s : State} (h : Inv s) : Inv (afterFault s) := by
  rw [afterFault_eq]
  split
  · exact h.advance ‹_›
  · exact h

theorem Inv.replyToStep {s : State} (h : Inv s) {r : Result} (hr : AllNext Inv r) :
    Inv (replyToStep r s).2 := by
  cases r with
  | next t => exact hr t rfl
  | fault f => exact h.afterFault
  | refused q => exact h

/-- An accepted image lies in memory, and a longer one changes nothing (70_reset_and_hazards.md R241). -/
theorem Inv.loadImage {p : Params} (hp : p.wf) {s clean : State} (h : Inv s) (hclean : Inv clean)
    (image : List Byte) : Inv (loadImage p clean image s).2 := by
  unfold Machine.loadImage
  split
  · exact h
  · obtain ⟨_, himage, _, _⟩ := hp
    exact hclean.writeSpan image (by omega)

theorem Inv.transactWith {p : Params} (hp : p.wf) {s : State} (h : Inv s) (tr : Transaction) :
    Inv (transactWith p tr s).2 := by
  cases tr with
  | load image => exact h.loadImage hp (inv_resetWith hp) image
  | step => exact h.replyToStep (stepWith_keeps_inv p h)
  | tick | setKey | readDisplay | readTimers => exact h

theorem Inv.afterAllWith {p : Params} (hp : p.wf) (trs : List Transaction) {s : State} (h : Inv s) :
    Inv (afterAllWith p trs s) := by
  induction trs generalizing s with
  | nil => exact h
  | cons tr trs ih => exact ih (h.transactWith hp tr)

/-- Settles O19, by induction on the list: every transaction keeps the invariant under well-formed parameters,
and the defaults are such parameters. -/
theorem everyTransactionSequenceKeepsInvariant : Obligations.EveryTransactionSequenceKeepsInvariant :=
  fun trs _ h => ⟨afterAllWith_default ▸ h.afterAllWith defaultParams_wf trs, fun _ hp => h.afterAllWith hp trs⟩

/-! ### The state after a fault (R212, R215) -/

theorem afterFault_of_fetch_error {s : State} {f : Fault} (h : fetch s = .error f) : afterFault s = s := by
  simp only [afterFault, h]

theorem afterFault_of_fetch_ok {s : State} {w : Word} (h : fetch s = .ok w) : afterFault s = s.advance := by
  simp only [afterFault, h]

theorem stepPort_eq_fault_iff (s t : State) (f : Fault) :
    stepPort s = (.fault f, t) ↔ step s = .fault f ∧ t = afterFault s := by
  unfold stepPort replyToStep
  cases step s <;> simp [eq_comm]

/-- Settles O10, by whether the fetch failed: if so its fault is the step's. -/
theorem faultsArePrecise : Obligations.FaultsArePrecise := by
  intro s t f h
  obtain ⟨hstep, rfl⟩ := (stepPort_eq_fault_iff s t f).mp h
  cases hf : fetch s with
  | error g =>
    obtain rfl : g = f := Host.Outcome.fault.inj ((step_of_fetch_error hf).symm.trans hstep)
    exact .inl ⟨rfl, afterFault_of_fetch_error hf⟩
  | ok w =>
    obtain ⟨hpc, -⟩ := (fetch_ok_iff s w).mp hf
    rw [afterFault_of_fetch_ok hf]
    exact .inr ⟨⟨w, rfl⟩, rfl, advance_pc_toNat hpc⟩

/-! ### The faults an operation can raise (R211, R217) -/

/-- The outcome is a next state or a fault that `F` allows, and so no refusal. -/
def FaultsWithin (F : Fault → Prop) : Result → Prop
  | .next _ => True
  | .fault f => F f
  | .refused _ => False

section FaultsWithin
variable {F : Fault → Prop} {s : State}

theorem faultsWithin_guardSpan {base n : Nat} {t : State}
    (h : n ≠ 0 → 4096 < base + n → F (.invalidMemoryAccess (max base 4096))) :
    FaultsWithin F (guardSpan base n (.next t)) := by
  obtain ⟨-, e⟩ | ⟨hout, hn, e⟩ := guardSpan_cases base n (.next t)
  · rw [e]
    trivial
  · rw [e]
    exact h hn hout

theorem faultsWithin_skipOnKey (pressed : Bool) (x : Reg)
    (h : 15 < (s.getV x).toNat → F (.undefinedKeyIndex (s.getV x))) :
    FaultsWithin F (skipOnKey pressed x s) := by
  unfold skipOnKey
  split
  · trivial
  · next hkey => exact h (keyIndex_eq_none.mp hkey)

theorem faultsWithin_ldFWith (base : Nat) (x : Reg)
    (h : 15 < (s.getV x).toNat → F (.fontIndexOutOfRange (s.getV x))) : FaultsWithin F (ldFWith base x s) := by
  unfold ldFWith
  split
  · trivial
  · next hnone =>
    refine h (Nat.lt_of_not_le fun hx => ?_)
    simp [glyphAddress, hx] at hnone

theorem faultsWithin_execCall (nnn : Addr12) (h : s.sp.val = 16 → F .stackOverflow) :
    FaultsWithin F (execCall nnn s) := by
  unfold execCall
  obtain ⟨_, e⟩ | ⟨hfull, e⟩ := push_cases s s.pc <;> rw [e]
  · trivial
  · exact h hfull

theorem faultsWithin_execRet (h : s.sp.val = 0 → F .stackUnderflow) : FaultsWithin F (execRet s) := by
  unfold execRet
  obtain ⟨_, e⟩ | ⟨hempty, e⟩ := pop_cases s <;> rw [e]
  · trivial
  · exact h hempty

theorem faultsWithin_execLdVxK (x : Reg) : FaultsWithin F (execLdVxK x s) := by
  unfold execLdVxK
  split <;> trivial

end FaultsWithin

/-- The rows of the fault table that an operation raises, with their causes in the state it runs on (R211). -/
inductive FaultCause (s : State) : Instr → Fault → Prop
  | full (nnn : Addr12) (hsp : s.sp.val = 16) : FaultCause s (.call nnn) .stackOverflow
  | empty (hsp : s.sp.val = 0) : FaultCause s .ret .stackUnderflow
  | sprite (x y : Reg) (n : Fin 16) (hn : n.val ≠ 0) (hout : 4096 < s.i.toNat + n.val) :
      FaultCause s (.drw x y n) (.invalidMemoryAccess (max s.i.toNat 4096))
  | digits (x : Reg) (hout : 4096 < s.i.toNat + 3) :
      FaultCause s (.ldB x) (.invalidMemoryAccess (max s.i.toNat 4096))
  | stored (x : Reg) (hout : 4096 < s.i.toNat + (x.val + 1)) :
      FaultCause s (.store x) (.invalidMemoryAccess (max s.i.toNat 4096))
  | loaded (x : Reg) (hout : 4096 < s.i.toNat + (x.val + 1)) :
      FaultCause s (.load x) (.invalidMemoryAccess (max s.i.toNat 4096))
  | noGlyph (x : Reg) (hx : 15 < (s.getV x).toNat) :
      FaultCause s (.ldF x) (.fontIndexOutOfRange (s.getV x))
  | noKeySkp (x : Reg) (hx : 15 < (s.getV x).toNat) : FaultCause s (.skp x) (.undefinedKeyIndex (s.getV x))
  | noKeySknp (x : Reg) (hx : 15 < (s.getV x).toNat) : FaultCause s (.sknp x) (.undefinedKeyIndex (s.getV x))

/-- Every operation goes on or raises a fault of the table; `SYS` goes on under the default `SYS_BEHAVIOUR`. -/
theorem exec_faultsWithin (i : Instr) (s : State) : FaultsWithin (FaultCause s i) (exec i s) := by
  cases i with
  | call nnn => exact faultsWithin_execCall nnn (.full nnn)
  | ret => exact faultsWithin_execRet .empty
  | drw x y n => exact faultsWithin_guardSpan (.sprite x y n)
  | ldB x => exact faultsWithin_guardSpan fun _ => .digits x
  | store x => exact faultsWithin_guardSpan fun _ => .stored x
  | load x => exact faultsWithin_guardSpan fun _ => .loaded x
  | ldF x => exact faultsWithin_ldFWith fontBase x (.noGlyph x)
  | skp x => exact faultsWithin_skipOnKey true x (.noKeySkp x)
  | sknp x => exact faultsWithin_skipOnKey false x (.noKeySknp x)
  | ldVxK x => exact faultsWithin_execLdVxK x
  | sys | cls | jp | jpV0 | seImm | sneImm | seReg | sneReg | ldImm | addImm | ldReg | orReg | andReg | xorReg
  | addReg | sub | shr | subn | shl | rnd | ldI | addI | ldVxDt | ldDtVx | ldStVx => trivial

theorem faultCause_of_exec {i : Instr} {s : State} {f : Fault} (h : exec i s = .fault f) : FaultCause s i f := by
  have hexec := exec_faultsWithin i s
  rwa [h] at hexec

theorem exec_ne_refused (i : Instr) (s : State) (r : Refusal) : exec i s ≠ .refused r := by
  intro h
  have hexec := exec_faultsWithin i s
  rwa [h] at hexec

/-- Settles O12: a step is a fetch fault, an invalid word or an operation, and no operation is refused. -/
theorem nothingIsRefused : Obligations.NothingIsRefused := by
  refine ⟨exec_ne_refused, fun s r => ?_⟩
  obtain ⟨f, -, e⟩ | ⟨w, u, -, -, e⟩ | ⟨i, -, e⟩ := step_cases s <;> rw [e]
  · nofun
  · nofun
  · exact exec_ne_refused i s.advance r

/-- The address a memory fault carries is out of range and has 16 bits (20_memory.md R54). -/
theorem reportedAddress_bounds (w : Word) : 4096 ≤ max w.toNat 4096 ∧ max w.toNat 4096 ≤ 0xFFFF := by
  have := w.isLt
  omega

/-- Settles O11: the fault is that of the fetch, of an invalid word, or of the fetched operation, whose causes
`FaultCause` lists; what they read is not touched by the pre-advance. -/
theorem faultsHaveTheirStatedCause : Obligations.FaultsHaveTheirStatedCause := by
  intro s f h
  obtain ⟨g, hf, e⟩ | ⟨w, u, hf, hd, e⟩ | ⟨i, hi, e⟩ := step_cases s <;> rw [e] at h
  · obtain rfl := Host.Outcome.fault.inj h
    obtain ⟨hpc, rfl⟩ := (fetch_error_iff s g).mp hf
    obtain ⟨hlow, hhigh⟩ := reportedAddress_bounds s.pc
    exact ⟨hlow, hhigh, .inl ⟨hpc, rfl⟩⟩
  · obtain rfl := Host.Outcome.fault.inj h
    obtain ⟨rfl, -⟩ := eq_and_listedInvalid_of_decode hd
    exact ⟨hf, .inl hd⟩
  · obtain ⟨hlow, hhigh⟩ := reportedAddress_bounds s.i
    cases faultCause_of_exec h with
    | full nnn hsp => exact ⟨hsp, nnn, hi⟩
    | empty hsp => exact ⟨hsp, hi⟩
    | sprite x y n hn hout =>
      exact ⟨hlow, hhigh, .inr ⟨rfl, .inl ⟨x, y, n, hi, Nat.pos_of_ne_zero hn, hout⟩⟩⟩
    | digits x hout => exact ⟨hlow, hhigh, .inr ⟨rfl, .inr (.inl ⟨x, hi, Nat.le_of_lt_succ hout⟩)⟩⟩
    | stored x hout =>
      exact ⟨hlow, hhigh, .inr ⟨rfl, .inr (.inr ⟨x, .inl hi, Nat.le_of_lt_succ hout⟩)⟩⟩
    | loaded x hout =>
      exact ⟨hlow, hhigh, .inr ⟨rfl, .inr (.inr ⟨x, .inr hi, Nat.le_of_lt_succ hout⟩)⟩⟩
    | noGlyph x hx => exact ⟨hx, x, hi, rfl⟩
    | noKeySkp x hx => exact ⟨hx, x, .inl hi, rfl⟩
    | noKeySknp x hx => exact ⟨hx, x, .inr hi, rfl⟩

/-! ### The ports that read (R227, R228) -/

/-- `read_display` answers the rows of the display one after another. -/
theorem displayCells_eq_flatten (s : State) : displayCells s = s.display.flatten.toList := by
  simp only [displayCells, Vector.flatten, Vector.toList, Array.toList_flatten, Array.toList_map, List.map_map]
  rfl

theorem length_displayCells (s : State) : (displayCells s).length = 2048 := by
  rw [displayCells_eq_flatten, Vector.length_toList]

/-- The quotient and the remainder of `y * 64 + x` by the width of a row are `y` and `x`. -/
theorem getElem?_displayCells (s : State) (x : Fin 64) (y : Fin 32) :
    (displayCells s)[y.val * 64 + x.val]? = some (s.pixel x y) := by
  have hlt : y.val * 64 + x.val < 32 * 64 := by omega
  have hrow : (y.val * 64 + x.val) / 64 = y.val := by omega
  have hcolumn : (y.val * 64 + x.val) % 64 = x.val := by omega
  rw [displayCells_eq_flatten, Vector.getElem?_toList, Vector.getElem?_eq_getElem hlt, Vector.getElem_flatten hlt]
  simp only [hrow, hcolumn]
  rfl

/-- Settles O58: each read port answers what it reads and hands the state back. -/
theorem readPortsAnswerWithoutEffect : Obligations.ReadPortsAnswerWithoutEffect := fun s =>
  ⟨⟨displayCells s, rfl, length_displayCells s, getElem?_displayCells s⟩, rfl⟩

/-! ### The ports that write (R225, R226) -/

theorem toNat_countDown (b : Byte) : (countDown b).toNat = b.toNat - 1 := by
  unfold countDown
  split
  · next hzero => rw [hzero]; rfl
  · bv_omega

theorem frame_tickPort (s : State) : Frame { delay := true, sound := true } s (tickPort s) := by
  obtain ⟨hregs, hi, hstack, -, -, hrest⟩ := frame_refl { delay := true, sound := true } s
  exact ⟨hregs, hi, hstack, nofun, nofun, hrest⟩

/-- Settles O56: the port writes the two timers, each counted down. -/
theorem tickCountsBothTimersDown : Obligations.TickCountsBothTimersDown := fun s =>
  ⟨tickPort s, rfl, toNat_countDown s.dt, toNat_countDown s.st, frame_tickPort s, rfl⟩

theorem key_setKeyPort (k j : Key) (p : Bool) (s : State) :
    (setKeyPort k p s).key j = if j = k then p else s.key j := by
  simp only [State.key, setKeyPort, Vector.getElem_set, Fin.ext_iff, eq_comm]

/-- Settles O57: the port is one write of the latch. -/
theorem setKeyWritesOneKey : Obligations.SetKeyWritesOneKey := fun k p s =>
  ⟨setKeyPort k p s, rfl, fun j => key_setKeyPort k j p s, rfl⟩

end Sys2Proof.Machine
end

section
/-!
SUPPORT. The rules of spec/70_reset_and_hazards.md: `load` (R241), the jump to itself that ends a run (R243), and
the key wait as the one place where a program waits for its host (R248).
-/

namespace Sys2Proof.Machine

/-! ### `load` (R241) -/

section Load
variable {p : Params} {clean s : State} {image : List Byte}

/-- An accepted image is one span write into the reset state, whose draw counter goes on. -/
theorem loadImage_of_le (h : image.length ≤ p.maxImage) :
    loadImage p clean image s =
      (.ok, { clean with mem := clean.mem.writeSpan p.programStart image, draws := s.draws }) :=
  if_neg (Nat.not_lt.mpr h)

theorem loadImage_of_gt (h : p.maxImage < image.length) :
    loadImage p clean image s = (.loadFault .imageTooLarge, s) :=
  if_pos h

theorem loadImage_places (h : image.length ≤ p.maxImage) :
    ∃ t, loadImage p clean image s = (.ok, t) ∧
      { t with mem := clean.mem, draws := clean.draws } = clean ∧ t.draws = s.draws ∧
      (∀ k (hk : k < image.length), t.mem.read (p.programStart + k) = image[k]) ∧
      (∀ a, a < p.programStart ∨ p.programStart + image.length ≤ a → t.mem.read a = clean.mem.read a) :=
  ⟨_, loadImage_of_le h, rfl, rfl, Memory.read_writeSpan_inside image clean.mem p.programStart,
    Memory.read_writeSpan_outside image clean.mem p.programStart⟩

end Load

/-- Settles O59: both ports are `loadImage`, under `p` and under `defaultParams`, each with its reset state. -/
theorem loadResetsAndPlacesTheImage : Obligations.LoadResetsAndPlacesTheImage :=
  ⟨fun _ _ _ _ => ⟨loadImage_places, loadImage_of_gt⟩, rfl,
    fun _ _ => ⟨loadImage_places (p := defaultParams), loadImage_of_gt (p := defaultParams)⟩⟩

/-! ### The end of a run (R243) -/

/-- Settles O27: the jump writes over the pre-advanced `PC` the address it was fetched from. -/
theorem selfJumpChangesNothing : Obligations.SelfJumpChangesNothing := by
  rintro s ⟨w, nnn, hf, hd, htarget⟩
  calc step s = exec (.jp nnn) s.advance := step_of_fetchesOp ⟨w, hf, hd⟩
    _ = .next (s.advance.setPc (zextAddr nnn)) := rfl
    _ = .next (s.advance.setPc s.pc) := by rw [htarget]
    _ = .next s := rfl

/-! ### The key wait without a key (R248) -/

section KeyWait
variable {x : Reg} {s : State} (hfetch : FetchesOp s (.ldVxK x)) (hnone : ∀ k, s.key k = false)
include hfetch hnone

/-- The rewind of the wait undoes the pre-advance of the step. -/
theorem step_of_keyWait : step s = .next s := by
  have hwait : leastPressed s.advance = none := leastPressed_eq_none.mpr hnone
  rw [step_of_fetchesOp hfetch, exec_ldVxK_of_none hwait, advance_rewind]

theorem transact_of_keyWait {tr : Transaction}
    (htr : tr = .step ∨ tr = .tick ∨ tr = .readDisplay ∨ tr = .readTimers) :
    ∃ dt st, (transact tr s).2 = { s with dt := dt, st := st } := by
  obtain rfl | rfl | rfl | rfl := htr
  · refine ⟨s.dt, s.st, ?_⟩
    simp only [transact, stepPort, step_of_keyWait hfetch hnone, replyToStep]
  · exact ⟨countDown s.dt, countDown s.st, rfl⟩
  · exact ⟨s.dt, s.st, rfl⟩
  · exact ⟨s.dt, s.st, rfl⟩

end KeyWait

/-- Settles O44, by induction on the list: one transaction changes at most the timers, and neither the fetch nor
the latch depends on them, so the wait is met again. -/
theorem keyWaitHoldsUntilAKeyIsSet : Obligations.KeyWaitHoldsUntilAKeyIsSet := by
  intro x s trs hfetch hnone htrs
  induction trs generalizing s with
  | nil => exact ⟨s.dt, s.st, rfl⟩
  | cons tr trs ih =>
    obtain ⟨htr, htrs⟩ := List.forall_mem_cons.mp htrs
    obtain ⟨dt, st, hstate⟩ := transact_of_keyWait hfetch hnone htr
    obtain ⟨dt', st', hrest⟩ := ih { s with dt := dt, st := st } hfetch hnone htrs
    exact ⟨dt', st', by rw [afterAll, hstate, hrest]⟩

end Sys2Proof.Machine
end

section
/-!
SUPPORT. The invariant at reset (10_state.md R34) and the operation `SYS` (40_control_flow.md R101).
-/

namespace Sys2Proof.Machine

/-! ### Reset (10_state.md R34) -/

/-- Settles O17: `State.reset` is the reset state under `defaultParams`, which are well formed. -/
theorem invariantHoldsAtReset : Obligations.InvariantHoldsAtReset :=
  ⟨resetWith_default ▸ inv_resetWith defaultParams_wf, fun _ hp => inv_resetWith hp⟩

/-! ### `SYS` (R101) -/

theorem exec_sys_eq (nnn : Addr12) (s : State) :
    exec (.sys nnn) s = sysEffect sysBehaviour (encode (.sys nnn)) s := rfl

theorem execWith_sys_eq (p : Params) (nnn : Addr12) (s : State) :
    execWith p (.sys nnn) s = sysEffect p.sysBehaviour (encode (.sys nnn)) s := rfl

theorem sysEffect_nop (w : Word) (s : State) : sysEffect .nop w s = .next s := rfl

theorem sysEffect_fault (w : Word) (s : State) : sysEffect .fault w s = .fault (.invalidOpcode w) := rfl

/-- The word of `SYS nnn` is 0nnn: its top nibble is 0. -/
theorem toNat_encode_sys (nnn : Addr12) : (encode (.sys nnn)).toNat = nnn.toNat :=
  calc (encode (.sys nnn)).toNat = 0 * 4096 + nnn.toNat := toNat_packA 0 nnn (by decide)
    _ = nnn.toNat := by rw [Nat.zero_mul, Nat.zero_add]

/-- Settles O20: both machines hand their `SYS_BEHAVIOUR` to `sysEffect`, and the default is `nop`. -/
theorem sysCompletesAsNop : Obligations.SysCompletesAsNop := by
  intro nnn w s
  have hdefault : exec (.sys nnn) s = .next s := (exec_sys_eq nnn s).trans (sysEffect_nop _ s)
  exact ⟨hdefault, exec_sys_eq nnn s, fun p => execWith_sys_eq p nnn s, toNat_encode_sys nnn,
    sysEffect_nop w s, sysEffect_fault w s⟩

end Sys2Proof.Machine
end
